-- ==== Sys2Proof/Word.lean ====
section
/-! DEFINITION. The machine's one word type: the byte (spec R5: XLEN = 8; R6: a register, a cell, an operand byte and an
opcode are unsigned 8-bit values). -/

namespace Sys2Proof

/-- A register, a memory cell, an address, an operand byte or an opcode (R5, R6). Arithmetic on it wraps modulo 256 and
every comparison of it is unsigned (R100). -/
abbrev Byte := BitVec 8

end Sys2Proof
end

