-- ==== Sys2Proof/Config.lean ====
section
/-! DEFINITION. The constants of spec R5 and the two parameters the spec leaves open: OPCODE_MAP and TRACE_ENABLE. Their
default values stand in Sys2Proof/Decode.lean (`Config.default`). The spec leaves no value of the machine free
(93_implementation_defined.md, after U24), so there is no uninterpreted constant here. -/

namespace Sys2Proof

/-- MEM_SIZE (R5): the addresses are 0 to 255. -/
abbrev memSize : Nat := 256

/-- SP_INDEX (R5, R12): register 7 is the stack pointer. -/
abbrev spIndex : Fin 8 := 7

/-- SP_RESET (R5, R24). -/
abbrev spReset : Byte := 0xF4

/-- PC_RESET (R5, R24): the entry point. -/
abbrev pcReset : Byte := 0x00

/-- The 32 mnemonics, in the order of spec/opcode_table.json: the domain of OPCODE_MAP (R54). -/
inductive Mnemonic where
  | nop | hlt | ret | push | pop | prn | pra | call
  | jmp | jeq | jne | jgt | jlt | jle | jge
  | inc | dec | not
  | ldi | ld | st
  | add | sub | mul | div | mod | cmp
  | and | or | xor | shl | shr
  deriving DecidableEq, Repr

/-- The four formats of R52: which of the two fetched operand bytes an instruction uses, and how. -/
inductive Format where
  /-- No operand; both bytes are fetched and ignored. -/
  | z
  /-- `a` is a register index; the third byte is fetched and ignored. -/
  | r
  /-- `a` and `b` are register indices. -/
  | rr
  /-- `a` is a register index and `b` an 8-bit literal. -/
  | ri
  deriving DecidableEq, Repr

/-- The implementation's parameters (R5, 92_eei_decisions.md "Open parameters"): OPCODE_MAP, an injective map from the
32 mnemonics to bytes (R54, D1), and TRACE_ENABLE (R23, D19). -/
structure Config where
  opcodeOf : Mnemonic → Byte
  opcodeOf_injective : ∀ m n, opcodeOf m = opcodeOf n → m = n
  traceEnable : Bool

end Sys2Proof
end

