-- ==== Sys2Proof/Syntax.lean ====
section
/-! DEFINITION. The 32 instructions of spec/opcode_table.json, one constructor per row. `a` and `b` are the operand bytes
as they stand in memory at PC+1 and PC+2 (R50, R52); only the bytes an instruction's format uses are fields. A register
operand is a whole byte that must be 0 to 7: Sys2Proof/WellFormed.lean says so, and an instruction whose byte is larger
takes the fault of R14 (Machine/Operands.lean, `regidx`). -/

namespace Sys2Proof

inductive Instr where
  /-- NOP (R78). -/
  | nop
  /-- HLT (R77). -/
  | hlt
  /-- RET (R85). -/
  | ret
  /-- PUSH a (R82). -/
  | push (a : Byte)
  /-- POP a (R83). -/
  | pop (a : Byte)
  /-- PRN a (R75). -/
  | prn (a : Byte)
  /-- PRA a (R76). -/
  | pra (a : Byte)
  /-- CALL a (R84). -/
  | call (a : Byte)
  /-- JMP a (R92). -/
  | jmp (a : Byte)
  /-- JEQ a (R93). -/
  | jeq (a : Byte)
  /-- JNE a (R94). -/
  | jne (a : Byte)
  /-- JGT a (R95). -/
  | jgt (a : Byte)
  /-- JLT a (R97). -/
  | jlt (a : Byte)
  /-- JLE a (R98). -/
  | jle (a : Byte)
  /-- JGE a (R96). -/
  | jge (a : Byte)
  /-- INC a (R112). -/
  | inc (a : Byte)
  /-- DEC a (R113). -/
  | dec (a : Byte)
  /-- NOT a (R109): the byte at PC+2 is no operand. -/
  | not (a : Byte)
  /-- LDI a,b (R70): `b` is the literal. -/
  | ldi (a b : Byte)
  /-- LD a,b (R71). -/
  | ld (a b : Byte)
  /-- ST a,b (R72): `a` names the address register. -/
  | st (a b : Byte)
  /-- ADD a,b (R101). -/
  | add (a b : Byte)
  /-- SUB a,b (R102). -/
  | sub (a b : Byte)
  /-- MUL a,b (R103). -/
  | mul (a b : Byte)
  /-- DIV a,b (R104). -/
  | div (a b : Byte)
  /-- MOD a,b (R105). -/
  | mod (a b : Byte)
  /-- CMP a,b (R91). -/
  | cmp (a b : Byte)
  /-- AND a,b (R106). -/
  | and (a b : Byte)
  /-- OR a,b (R107). -/
  | or (a b : Byte)
  /-- XOR a,b (R108). -/
  | xor (a b : Byte)
  /-- SHL a,b (R110). -/
  | shl (a b : Byte)
  /-- SHR a,b (R111). -/
  | shr (a b : Byte)
  deriving DecidableEq, Repr

end Sys2Proof
end

