-- ==== Sys2Proof/WellFormed.lean ====
section
/-! DEFINITION. Which instructions are well formed: every operand byte that the format declares a register is 0 to 7
(R14, R52). Literals and ignored bytes are not checked (R14). -/

namespace Sys2Proof

/-- The operand bytes an instruction's format declares to be register indices, `a` before `b` (R14, R52). -/
def Instr.registerOperands : Instr → List Byte
  | .nop | .hlt | .ret => []
  | .push a | .pop a | .prn a | .pra a | .call a | .jmp a | .jeq a | .jne a | .jgt a | .jlt a | .jle a | .jge a
  | .inc a | .dec a | .not a => [a]
  | .ldi a _ => [a]
  | .ld a b | .st a b | .add a b | .sub a b | .mul a b | .div a b | .mod a b | .cmp a b | .and a b | .or a b
  | .xor a b | .shl a b | .shr a b => [a, b]

/-- Bits 7:3 of a register operand must be zero (R52). -/
def registerByteOk (v : Byte) : Bool := decide (v.toNat ≤ 7)

/-- Every register operand is in 0..7 (R14). -/
def Instr.wf (i : Instr) : Bool := i.registerOperands.all registerByteOk

/-- The operand byte that R14 reports: the first register operand above 7, `a` before `b`. -/
def Instr.firstBadOperand (i : Instr) : Option Byte := i.registerOperands.find? (fun v => Bool.not (registerByteOk v))

end Sys2Proof
end

