-- ==== Sys2Proof/Decode.lean ====
section
/-! DEFINITION. The opcode map, the decoder (the source's "Dispatch Table", the inverse of OPCODE_MAP: R9, R51, R56) and,
after it, the encoder (R54, R59). Decode is by the whole opcode byte (R50); it is total, and rejects by name. -/

namespace Sys2Proof

/-- Every mnemonic, in the order of spec/opcode_table.json. -/
def Mnemonic.all : List Mnemonic :=
  [.nop, .hlt, .ret, .push, .pop, .prn, .pra, .call, .jmp, .jeq, .jne, .jgt, .jlt, .jle, .jge, .inc] ++
  [.dec, .not, .ldi, .ld, .st, .add, .sub, .mul, .div, .mod, .cmp, .and, .or, .xor, .shl, .shr]

/-- The default OPCODE_MAP, the table of R54. PRESUMED (log 1): the spec marks these numbers as general knowledge of the
teaching ISA; unsafe for a machine with another map, safe for every statement about all `Config`s. -/
def defaultOpcode : Mnemonic → Byte
  | .nop => 0x00
  | .hlt => 0x01
  | .ret => 0x11
  | .push => 0x45
  | .pop => 0x46
  | .prn => 0x47
  | .pra => 0x48
  | .call => 0x50
  | .jmp => 0x54
  | .jeq => 0x55
  | .jne => 0x56
  | .jgt => 0x57
  | .jlt => 0x58
  | .jle => 0x59
  | .jge => 0x5A
  | .inc => 0x65
  | .dec => 0x66
  | .not => 0x69
  | .ldi => 0x82
  | .ld => 0x83
  | .st => 0x84
  | .add => 0xA0
  | .sub => 0xA1
  | .mul => 0xA2
  | .div => 0xA3
  | .mod => 0xA4
  | .cmp => 0xA7
  | .and => 0xA8
  | .or => 0xAA
  | .xor => 0xAB
  | .shl => 0xAC
  | .shr => 0xAD

/-- The mnemonic whose opcode is this byte, if there is one: the inverse of OPCODE_MAP (R9, R56). -/
def mnemonicOf (opcodeOf : Mnemonic → Byte) (ir : Byte) : Option Mnemonic :=
  Mnemonic.all.find? (fun m => opcodeOf m == ir)

/-- The default map is injective (R54): the inverse gives each mnemonic back. -/
theorem defaultOpcode_injective (m n : Mnemonic) (h : defaultOpcode m = defaultOpcode n) : m = n := by
  have back : ∀ k, mnemonicOf defaultOpcode (defaultOpcode k) = some k := by intro k; cases k <;> rfl
  have hm := back m
  rw [h, back n] at hm
  exact (Option.some.inj hm).symm

/-- OPCODE_MAP and TRACE_ENABLE at the spec's default values (R5, 92_eei_decisions.md). -/
def Config.default : Config where
  opcodeOf := defaultOpcode
  opcodeOf_injective := defaultOpcode_injective
  traceEnable := false

/-- The three bytes of the fetch window (R51): `ir` at PC, `a` at PC+1, `b` at PC+2. -/
structure Window where
  ir : Byte
  a : Byte
  b : Byte
  deriving DecidableEq, Repr

/-- Why a window is no instruction. -/
inductive DecodeError where
  /-- The opcode byte is not in the image of OPCODE_MAP (R56); the core takes IllegalInstruction with it (R122). -/
  | illegalInstruction (ir : Byte)
  deriving DecidableEq, Repr

/-- The format of each mnemonic (R52). -/
def Mnemonic.format : Mnemonic → Format
  | .nop | .hlt | .ret => .z
  | .push | .pop | .prn | .pra | .call | .jmp | .jeq | .jne | .jgt | .jlt | .jle | .jge | .inc | .dec | .not => .r
  | .ld | .st | .cmp | .add | .sub | .mul | .div | .mod | .and | .or | .xor | .shl | .shr => .rr
  | .ldi => .ri

/-- `ADV(m)` (R55): the sequential advance, or none for an instruction that has none (HLT) or always sets PC. For a
conditional jump it is the advance when the jump is not taken. -/
def Mnemonic.adv : Mnemonic → Option Nat
  | .hlt | .ret | .call | .jmp => none
  | .prn | .pra | .st | .nop | .push | .pop | .inc | .dec => some 2
  | .jeq | .jne | .jgt | .jge | .jlt | .jle => some 2
  | .ldi | .ld | .cmp | .add | .sub | .mul | .div | .mod | .and | .or | .xor | .not | .shl | .shr => some 3

/-- The instruction of a mnemonic with the operand bytes `a` at PC+1 and `b` at PC+2; its format's ignored bytes are
dropped (R52). -/
def Mnemonic.withOperands (m : Mnemonic) (a b : Byte) : Instr :=
  match m with
  | .nop => .nop
  | .hlt => .hlt
  | .ret => .ret
  | .push => .push a
  | .pop => .pop a
  | .prn => .prn a
  | .pra => .pra a
  | .call => .call a
  | .jmp => .jmp a
  | .jeq => .jeq a
  | .jne => .jne a
  | .jgt => .jgt a
  | .jlt => .jlt a
  | .jle => .jle a
  | .jge => .jge a
  | .inc => .inc a
  | .dec => .dec a
  | .not => .not a
  | .ldi => .ldi a b
  | .ld => .ld a b
  | .st => .st a b
  | .add => .add a b
  | .sub => .sub a b
  | .mul => .mul a b
  | .div => .div a b
  | .mod => .mod a b
  | .cmp => .cmp a b
  | .and => .and a b
  | .or => .or a b
  | .xor => .xor a b
  | .shl => .shl a b
  | .shr => .shr a b

/-- Decoding a fetch window under a configuration (R51, R56). -/
def decode (cfg : Config) (w : Window) : Except DecodeError Instr :=
  match mnemonicOf cfg.opcodeOf w.ir with
  | some m => .ok (m.withOperands w.a w.b)
  | none => .error (.illegalInstruction w.ir)

/-- The mnemonic of an instruction. -/
def Instr.mnemonic : Instr → Mnemonic
  | .nop => .nop
  | .hlt => .hlt
  | .ret => .ret
  | .push _ => .push
  | .pop _ => .pop
  | .prn _ => .prn
  | .pra _ => .pra
  | .call _ => .call
  | .jmp _ => .jmp
  | .jeq _ => .jeq
  | .jne _ => .jne
  | .jgt _ => .jgt
  | .jlt _ => .jlt
  | .jle _ => .jle
  | .jge _ => .jge
  | .inc _ => .inc
  | .dec _ => .dec
  | .not _ => .not
  | .ldi _ _ => .ldi
  | .ld _ _ => .ld
  | .st _ _ => .st
  | .add _ _ => .add
  | .sub _ _ => .sub
  | .mul _ _ => .mul
  | .div _ _ => .div
  | .mod _ _ => .mod
  | .cmp _ _ => .cmp
  | .and _ _ => .and
  | .or _ _ => .or
  | .xor _ _ => .xor
  | .shl _ _ => .shl
  | .shr _ _ => .shr

/-- The operand bytes an instruction uses, in the order of memory (R52, R58). -/
def Instr.operandBytes : Instr → List Byte
  | .nop | .hlt | .ret => []
  | .push a | .pop a | .prn a | .pra a | .call a | .jmp a | .jeq a | .jne a | .jgt a | .jlt a | .jle a | .jge a
  | .inc a | .dec a | .not a => [a]
  | .ldi a b | .ld a b | .st a b | .add a b | .sub a b | .mul a b | .div a b | .mod a b | .cmp a b | .and a b
  | .or a b | .xor a b | .shl a b | .shr a b => [a, b]

/-- The bytes of an instruction: its opcode and the operand bytes it uses, at ascending addresses (R50, R52, R54). -/
def encode (cfg : Config) (i : Instr) : List Byte := cfg.opcodeOf i.mnemonic :: i.operandBytes

/-- What an assembler emits (R59): the encoding, and for NOP and NOT one further byte of any value, the filler their
advance skips (R147, R148). -/
def assemble (cfg : Config) (filler : Byte) (i : Instr) : List Byte :=
  match i with
  | .nop | .not _ => encode cfg i ++ [filler]
  | _ => encode cfg i

/-- The window that a fetch reads where these bytes stand and every later cell is 0. -/
def Window.ofBytes (bs : List Byte) : Window := ⟨bs.getD 0 0, bs.getD 1 0, bs.getD 2 0⟩

/-- The window of an instruction word numbered as spec/opcode_table.json numbers it: bits 7..0 are the byte at PC, 15..8
the byte at PC+1, 23..16 the byte at PC+2; every bit from `nbits` up is 0. -/
def Window.ofWord (nbits w : Nat) : Window :=
  let v := w % 2 ^ nbits
  ⟨BitVec.ofNat 8 v, BitVec.ofNat 8 (v / 2 ^ 8), BitVec.ofNat 8 (v / 2 ^ 16)⟩

/-- The instruction this decoder reads from a word of the opcode table, under the default OPCODE_MAP. -/
def decodeTableWord (nbits w : Nat) : Option Instr := (decode Config.default (Window.ofWord nbits w)).toOption

end Sys2Proof
end

