-- ==== Sys2Proof/Machine/State.lean ====
section
/-! DEFINITION. The state of the LS-8 core, everything spec R10 gives the machine, as plain data; the reasons a step can
stop; and the state after reset (R24, R140). -/

namespace Sys2Proof.Machine

/-- MEM (R30): the cells that do not hold 0, as (address, byte) pairs. A cell that is not listed holds 0, the reset value
of every cell (R24). The one canonical form is `Memory.wf` (Machine/Ops.lean). -/
abbrev Memory := List Host.Cell

/-- The causes of a fault the core can raise (R120). ProgramNotFound is the loader's and never the core's (R127):
`Refusal.programNotFound`. -/
inductive Cause where
  /-- A fetch window, a sequential advance or a register index out of its domain (R121). -/
  | outOfRangeAddress
  /-- An opcode byte outside the image of OPCODE_MAP (R122). -/
  | illegalInstruction
  /-- DIV with a zero divisor (R123). -/
  | divideByZero
  /-- MOD with a zero divisor (R124). -/
  | moduloByZero
  /-- PUSH or CALL with the stack pointer at 0x00 (R125). -/
  | stackOverflow
  /-- POP or RET that would increment 0xFF (R126). -/
  | stackUnderflow
  deriving DecidableEq, Repr

/-- What an instruction raises: the cause and its datum (R120, last column; 0 to 256 at every step). -/
structure Trap where
  cause : Cause
  info : Nat
  deriving DecidableEq, Repr

/-- RUN (R19). -/
inductive RunState where
  /-- The core executes steps. -/
  | running
  /-- HLT was executed (R77). -/
  | halted
  /-- A fault was raised: its cause, the address of the faulting instruction's opcode, its datum (R129). -/
  | faulted (cause : Cause) (pc : Byte) (info : Nat)
  deriving DecidableEq, Repr

/-- The kind of an output event (R22). -/
inductive OutKind where
  /-- Emitted by PRN (R75). -/
  | int
  /-- Emitted by PRA (R76). -/
  | char
  deriving DecidableEq, Repr

/-- One event of the output stream (R22). -/
structure OutEvent where
  kind : OutKind
  value : Byte
  deriving DecidableEq, Repr

/-- One record of the trace stream (R23): the program counter, the three bytes at it, the eight registers. -/
structure TraceRecord where
  pc : Byte
  m0 : Byte
  m1 : Byte
  m2 : Byte
  regs : Vector Byte 8
  deriving DecidableEq, Repr

/-- The whole state (R10). -/
structure State where
  /-- x[0..7] (R11); index 7 is the stack pointer (R12). -/
  regs : Vector Byte 8
  /-- PC (R15). -/
  pc : Byte
  /-- FL (R17): bit 0 Equal, bit 1 Greater, bit 2 Less. -/
  fl : BitVec 3
  /-- MEM (R30). -/
  mem : Memory
  /-- RUN (R19). -/
  run : RunState
  /-- OUT (R22), oldest event first. -/
  out : List OutEvent
  /-- TRACE (R23), oldest record first; nothing is ever added unless TRACE_ENABLE is true. -/
  trace : List TraceRecord
  deriving DecidableEq, Repr

/-- Why no step exists: the machine is stuck (93_implementation_defined.md U23, "no step is defined from `Halted` or
`Faulted`"). DESIGN CHOICE (log 3): the spec's faults are next states with RUN = Faulted; these two are only the answer to a
step asked of a run that has ended. Safe: the machine stops where the hardware does. -/
inductive Fault where
  /-- Raised by the cycle when RUN is Halted (R19, R51). Safe. -/
  | coreHalted
  /-- Raised by the cycle when RUN is Faulted, with the triple RUN holds (R19, R51, R131). Safe. -/
  | coreFaulted (cause : Cause) (pc : Byte) (info : Nat)
  deriving DecidableEq, Repr

/-- What the model or the host refuses. No instruction is refused. -/
inductive Refusal where
  /-- Raised by an arm of exec that has no meaning yet; no arm of this model raises it. Safe. -/
  | notModelled (mnemonic : String)
  /-- Raised by the host's load when the program has more than 256 bytes (R141, U12); holds its length. Safe. -/
  | programTooLong (bytes : Nat)
  /-- Raised by the host's load when the program cannot be obtained (R127, U13). Safe. -/
  | programNotFound
  deriving DecidableEq, Repr

/-- The state after reset (R24, R140): the registers 0 but SP, which is 0xF4; memory 0 in every cell; PC and FL 0; Running;
the two streams empty. -/
def State.reset : State where
  regs := #v[0, 0, 0, 0, 0, 0, 0, spReset]
  pc := pcReset
  fl := 0
  mem := []
  run := .running
  out := []
  trace := []

end Sys2Proof.Machine
end

