-- ==== Sys2Proof/Machine/Ops.lean ====
section
/-! DEFINITION. The named operations over memory, registers, PC, the stack, the output port and RUN, with the taking of a
fault (R129) as one shared operation, `State.raise`, and `commit`, which every meaning ends in. There is no return from a
fault (R131): only `State.reset` leaves Faulted. -/

namespace Sys2Proof.Machine

/-! ## Memory (R30, R31, R35) -/

/-- The byte at an address: 0 where nothing is listed (R24). -/
def Memory.read : Memory → Nat → Byte
  | [], _ => 0
  | (k, v) :: m, a => if k = a then v else Memory.read m a

/-- The memory without any entry for an address. -/
def Memory.erase (m : Memory) (a : Nat) : Memory := m.filter (fun c => decide (c.1 ≠ a))

/-- An entry put before the first larger address. -/
def Memory.insert : Memory → Nat → Byte → Memory
  | [], a, v => [(a, v)]
  | (k, w) :: m, a, v => if k < a then (k, w) :: Memory.insert m a v else (a, v) :: (k, w) :: m

/-- The byte at one address replaced (R31); writing 0, what an unlisted cell reads as, removes the entry. -/
def Memory.write (m : Memory) (a : Nat) (v : Byte) : Memory :=
  if v = 0 then m.erase a else (m.erase a).insert a v

/-- The canonical form: addresses strictly rising and below 256, no entry equal to what an unlisted address reads as. -/
def Memory.wf : Memory → Bool
  | [] => true
  | (k, v) :: m => decide (k < memSize) && decide (v ≠ 0) && m.all (fun c => decide (k < c.1)) && Memory.wf m

/-- `MemRead(addr, 1)` (R7, R31). An address a step uses is a byte, so it always exists. -/
def State.memRead (s : State) (a : Byte) : Byte := s.mem.read a.toNat

/-- `MemWrite(addr, 1, v)` (R7, R31). -/
def State.memWrite (s : State) (a v : Byte) : State := { s with mem := s.mem.write a.toNat v }

/-! ## Registers, PC, FL, RUN and the streams -/

/-- `x[i]` (R7, R11): no register is hardwired. -/
def State.reg (s : State) (i : Fin 8) : Byte := s.regs[i]

/-- `x[i] <- v` (R7, R11). -/
def State.setReg (s : State) (i : Fin 8) (v : Byte) : State := { s with regs := s.regs.set i v }

/-- The stack pointer is register 7 (R12). -/
def State.sp (s : State) : Byte := s.reg spIndex

/-- `pc <- t` (R7). -/
def State.setPc (s : State) (t : Byte) : State := { s with pc := t }

/-- `FL <- v` (R7). -/
def State.setFl (s : State) (v : BitVec 3) : State := { s with fl := v }

/-- `RUN <- Halted` (R77). -/
def State.halt (s : State) : State := { s with run := .halted }

/-- `Output(kind, v)` (R7, R22): the event goes to the end of the stream. -/
def State.output (s : State) (kind : OutKind) (v : Byte) : State := { s with out := s.out ++ [⟨kind, v⟩] }

/-- One more trace record (R23). -/
def State.record (s : State) (r : TraceRecord) : State := { s with trace := s.trace ++ [r] }

/-! ## Faults -/

/-- Fault entry (R129): RUN becomes Faulted with the cause, the address of the instruction's opcode (PC still holds it,
R15) and the datum; nothing else changes. -/
def State.raise (s : State) (cause : Cause) (info : Nat) : State := { s with run := .faulted cause s.pc info }

/-- How an instruction ends: with the state its effects give, or, if it raised, with the fault entered from the state it
started in, so that nothing of it is committed (R7 `raise`, R129). -/
def commit (s : State) (r : Except Trap State) : Host.Outcome State Fault Refusal :=
  match r with
  | .ok t => .next t
  | .error e => .next (s.raise e.cause e.info)

/-- The address `advance(n)` moves PC to, or the fault it raises: PC never wraps (R7, R16). DEDUCED (log 5): R16(e) is
applied at every PC, also at 254 and 255, where no instruction can start. -/
def State.sequential (s : State) (n : Nat) : Except Trap Byte :=
  if s.pc.toNat + n > 255 then .error ⟨.outOfRangeAddress, s.pc.toNat + n⟩
  else .ok (BitVec.ofNat 8 (s.pc.toNat + n))

/-! ## The stack (R80, R81) -/

/-- The decrement of a push, with its check (R80). -/
def State.decSp (s : State) : Except Trap State :=
  if s.sp = 0x00 then .error ⟨.stackOverflow, 0x00⟩ else .ok (s.setReg spIndex (s.sp - 1))

/-- The increment of a pop, with its check (R81, R83). -/
def State.incSp (s : State) : Except Trap State :=
  if s.sp = 0xFF then .error ⟨.stackUnderflow, 0xFF⟩ else .ok (s.setReg spIndex (s.sp + 1))

/-- `push(v)` (R80): `v` is evaluated after the decrement. -/
def State.push (s : State) (v : State → Except Trap Byte) : Except Trap State := do
  let s1 ← s.decSp
  let b ← v s1
  return s1.memWrite s1.sp b

/-- `pop()` (R81): the byte and the state with SP incremented; the popped cell keeps its value. -/
def State.pop (s : State) : Except Trap (Byte × State) := do
  let s1 ← s.incSp
  return (s.memRead s.sp, s1)

end Sys2Proof.Machine
end

