-- ==== Sys2Proof/Machine/Operands.lean ====
section
/-! DEFINITION. The operand forms: a register operand byte with its domain check (R14), and the shared shapes of the
register-operand instructions. -/

namespace Sys2Proof.Machine

/-- `regidx(v)` (R7, R14): the register a byte names, or OutOfRangeAddress with the byte. DEDUCED (log 4): the check stands
in each meaning, before anything else it does, not in the decoder; the step is atomic, so no state tells the two apart. -/
def regidx (v : Byte) : Except Trap (Fin 8) :=
  if h : v.toNat < 8 then .ok ⟨v.toNat, h⟩ else .error ⟨.outOfRangeAddress, v.toNat⟩

/-- The operand byte that names a register. -/
def regByte (r : Fin 8) : Byte := BitVec.ofNat 8 r.val

/-- A one-register instruction (format R): the operand check, then its effects. -/
def withReg (a : Byte) (k : Fin 8 → Except Trap State) : Except Trap State := do
  let ra ← regidx a
  k ra

/-- A two-register instruction (format RR): operand `a` is checked before operand `b` (R14). -/
def withRegs (a b : Byte) (k : Fin 8 → Fin 8 → Except Trap State) : Except Trap State := do
  let ra ← regidx a
  let rb ← regidx b
  k ra rb

/-- The effects of an instruction that ends with `pc <- PC + n`: the advance can fault, and then nothing is committed
(R16(e)). `t` is the state its other effects give. -/
def finish (s : State) (n : Nat) (t : State) : Except Trap State := do
  let next ← s.sequential n
  return t.setPc next

/-- The shape of the two-operand ALU instructions (R100, R101 to R111): both sources are read, the operation's own fault
comes before the advance fault (R130), and the result goes to `x[a]`. -/
def alu2 (op : Byte → Byte → Except Trap Byte) (a b : Byte) (s : State) : Except Trap State :=
  withRegs a b fun ra rb => do
    let v ← op (s.reg ra) (s.reg rb)
    finish s 3 (s.setReg ra v)

/-- The shape of the one-operand ALU instructions NOT, INC and DEC, with their advance (R109, R112, R113). -/
def alu1 (op : Byte → Byte) (n : Nat) (a : Byte) (s : State) : Except Trap State :=
  withReg a fun ra => finish s n (s.setReg ra (op (s.reg ra)))

/-- The shape of the jumps (R90): the operand is checked whether or not the jump is taken; a taken jump does
`pc <- x[a]` and nothing else, an untaken one `pc <- PC + 2`. -/
def jumpIf (taken : Bool) (a : Byte) (s : State) : Except Trap State :=
  withReg a fun ra => if taken then .ok (s.setPc (s.reg ra)) else finish s 2 s

end Sys2Proof.Machine
end

