-- ==== Sys2Proof/Machine/Alu.lean ====
section
/-! DEFINITION. The thirteen ALU instructions (spec/44_alu.md). Bytes wrap modulo 256, every operation is unsigned, and FL
is neither read nor written (R100). The `alu…` functions are the source's "pure functions" (R100(h)). -/

namespace Sys2Proof.Machine

/-- `(x + y) mod 256` (R101). -/
def aluAdd (x y : Byte) : Byte := x + y

/-- `(x - y) mod 256` (R102): SUB subtracts (C3). -/
def aluSub (x y : Byte) : Byte := x - y

/-- `(x * y) mod 256` (R103). -/
def aluMul (x y : Byte) : Byte := x * y

/-- The unsigned floor quotient, or DivideByZero with the dividend (R104, R123). -/
def aluDiv (x y : Byte) : Except Trap Byte := if y = 0 then .error ⟨.divideByZero, x.toNat⟩ else .ok (x / y)

/-- The unsigned remainder, or ModuloByZero with the dividend (R105, R124). -/
def aluMod (x y : Byte) : Except Trap Byte := if y = 0 then .error ⟨.moduloByZero, x.toNat⟩ else .ok (x % y)

/-- `(x * 2^n) mod 256`, 0 for a count of 8 or more (R110). -/
def aluShl (x n : Byte) : Byte := if n.toNat ≥ 8 then 0 else x <<< n.toNat

/-- `x div 2^n`, 0 for a count of 8 or more (R111). -/
def aluShr (x n : Byte) : Byte := if n.toNat ≥ 8 then 0 else x >>> n.toNat

/-- ADD a,b (R101). -/
def execAdd (a b : Byte) (s : State) : Host.Outcome State Fault Refusal :=
  commit s (alu2 (fun x y => .ok (aluAdd x y)) a b s)

/-- SUB a,b (R102). -/
def execSub (a b : Byte) (s : State) : Host.Outcome State Fault Refusal :=
  commit s (alu2 (fun x y => .ok (aluSub x y)) a b s)

/-- MUL a,b (R103). -/
def execMul (a b : Byte) (s : State) : Host.Outcome State Fault Refusal :=
  commit s (alu2 (fun x y => .ok (aluMul x y)) a b s)

/-- DIV a,b (R104). -/
def execDiv (a b : Byte) (s : State) : Host.Outcome State Fault Refusal := commit s (alu2 aluDiv a b s)

/-- MOD a,b (R105). -/
def execMod (a b : Byte) (s : State) : Host.Outcome State Fault Refusal := commit s (alu2 aluMod a b s)

/-- AND a,b (R106). -/
def execAnd (a b : Byte) (s : State) : Host.Outcome State Fault Refusal :=
  commit s (alu2 (fun x y => .ok (x &&& y)) a b s)

/-- OR a,b (R107). -/
def execOr (a b : Byte) (s : State) : Host.Outcome State Fault Refusal :=
  commit s (alu2 (fun x y => .ok (x ||| y)) a b s)

/-- XOR a,b (R108). -/
def execXor (a b : Byte) (s : State) : Host.Outcome State Fault Refusal :=
  commit s (alu2 (fun x y => .ok (x ^^^ y)) a b s)

/-- NOT a (R109): `x[a] ^ 0xFF`; advance 3, the third byte is not an operand. -/
def execNot (a : Byte) (s : State) : Host.Outcome State Fault Refusal := commit s (alu1 (fun x => x ^^^ 0xFF) 3 a s)

/-- SHL a,b (R110). -/
def execShl (a b : Byte) (s : State) : Host.Outcome State Fault Refusal :=
  commit s (alu2 (fun x n => .ok (aluShl x n)) a b s)

/-- SHR a,b (R111). -/
def execShr (a b : Byte) (s : State) : Host.Outcome State Fault Refusal :=
  commit s (alu2 (fun x n => .ok (aluShr x n)) a b s)

/-- INC a (R112). -/
def execInc (a : Byte) (s : State) : Host.Outcome State Fault Refusal := commit s (alu1 (fun x => x + 1) 2 a s)

/-- DEC a (R113). -/
def execDec (a : Byte) (s : State) : Host.Outcome State Fault Refusal := commit s (alu1 (fun x => x - 1) 2 a s)

end Sys2Proof.Machine
end

