-- ==== Sys2Proof/Machine/Flags.lean ====
section
/-! DEFINITION. The flags: the one flag computation of the machine, that of CMP (R91), and the six conditions the jumps
read (R90). -/

namespace Sys2Proof.Machine

/-- FL.E, bit 0 (R17). -/
def State.flE (s : State) : Bool := s.fl.getLsbD 0

/-- FL.G, bit 1 (R17). -/
def State.flG (s : State) : Bool := s.fl.getLsbD 1

/-- FL.L, bit 2 (R17). -/
def State.flL (s : State) : Bool := s.fl.getLsbD 2

/-- What CMP writes to FL: Equal, Greater or Less, unsigned, the first operand the subject (R91). -/
def compareFlags (x y : Byte) : BitVec 3 :=
  if x = y then 0b001#3
  else if x.toNat > y.toNat then 0b010#3
  else 0b100#3

/-- JEQ (R93). -/
def condEq (s : State) : Bool := s.flE

/-- JNE (R94): Equal clear, so also at FL = 0b000. -/
def condNe (s : State) : Bool := !s.flE

/-- JGT (R95). -/
def condGt (s : State) : Bool := s.flG

/-- JGE (R96). -/
def condGe (s : State) : Bool := s.flG || s.flE

/-- JLT (R97). -/
def condLt (s : State) : Bool := s.flL

/-- JLE (R98). -/
def condLe (s : State) : Bool := s.flL || s.flE

end Sys2Proof.Machine
end

