-- ==== Sys2Proof/Machine/CompareJump.lean ====
section
/-! DEFINITION. CMP and the seven jumps (spec/43_compare_and_jumps.md). -/

namespace Sys2Proof.Machine

/-- CMP a,b (R91): the only instruction that writes FL. -/
def execCmp (a b : Byte) (s : State) : Host.Outcome State Fault Refusal :=
  commit s (withRegs a b fun ra rb => finish s 3 (s.setFl (compareFlags (s.reg ra) (s.reg rb))))

/-- JMP a (R92). -/
def execJmp (a : Byte) (s : State) : Host.Outcome State Fault Refusal := commit s (jumpIf true a s)

/-- JEQ a (R93). -/
def execJeq (a : Byte) (s : State) : Host.Outcome State Fault Refusal := commit s (jumpIf (condEq s) a s)

/-- JNE a (R94). -/
def execJne (a : Byte) (s : State) : Host.Outcome State Fault Refusal := commit s (jumpIf (condNe s) a s)

/-- JGT a (R95). -/
def execJgt (a : Byte) (s : State) : Host.Outcome State Fault Refusal := commit s (jumpIf (condGt s) a s)

/-- JGE a (R96). -/
def execJge (a : Byte) (s : State) : Host.Outcome State Fault Refusal := commit s (jumpIf (condGe s) a s)

/-- JLT a (R97). -/
def execJlt (a : Byte) (s : State) : Host.Outcome State Fault Refusal := commit s (jumpIf (condLt s) a s)

/-- JLE a (R98). -/
def execJle (a : Byte) (s : State) : Host.Outcome State Fault Refusal := commit s (jumpIf (condLe s) a s)

end Sys2Proof.Machine
end

