-- ==== Sys2Proof/Machine/DataMovement.lean ====
section
/-! DEFINITION. LDI, LD, ST (spec/40_data_movement.md). -/

namespace Sys2Proof.Machine

/-- LDI a,b (R70): `x[a] <- b`. -/
def execLdi (a b : Byte) (s : State) : Host.Outcome State Fault Refusal :=
  commit s (withReg a fun ra => finish s 3 (s.setReg ra b))

/-- LD a,b (R71): `x[a] <- MEM[x[b]]`; the address is read before the register is written. -/
def execLd (a b : Byte) (s : State) : Host.Outcome State Fault Refusal :=
  commit s (withRegs a b fun ra rb => finish s 3 (s.setReg ra (s.memRead (s.reg rb))))

/-- The address ST stores to (R72). -/
def stAddress (s : State) (ra : Fin 8) : Byte := s.reg ra

/-- ST a,b (R72): `MEM[x[a]] <- x[b]`; the advance is 2 (R55, C2). -/
def execSt (a b : Byte) (s : State) : Host.Outcome State Fault Refusal :=
  commit s (withRegs a b fun ra rb => finish s 2 (s.memWrite (stAddress s ra) (s.reg rb)))

end Sys2Proof.Machine
end

