-- ==== Sys2Proof/Machine/OutputControl.lean ====
section
/-! DEFINITION. PRN, PRA, HLT, NOP (spec/41_output_and_machine_control.md). -/

namespace Sys2Proof.Machine

/-- PRN a (R75): OUT gains (INT, x[a]). -/
def execPrn (a : Byte) (s : State) : Host.Outcome State Fault Refusal :=
  commit s (withReg a fun ra => finish s 2 (s.output .int (s.reg ra)))

/-- PRA a (R76): OUT gains (CHAR, x[a]). -/
def execPra (a : Byte) (s : State) : Host.Outcome State Fault Refusal :=
  commit s (withReg a fun ra => finish s 2 (s.output .char (s.reg ra)))

/-- HLT (R77): RUN becomes Halted and PC keeps the address of the HLT (R16(d)). -/
def execHlt (s : State) : Host.Outcome State Fault Refusal := commit s (.ok s.halt)

/-- NOP (R78): the advance of 2 alone (R55, C2). -/
def execNop (s : State) : Host.Outcome State Fault Refusal := commit s (finish s 2 s)

end Sys2Proof.Machine
end

