-- ==== Sys2Proof/Machine/Stack.lean ====
section
/-! DEFINITION. PUSH, POP, CALL, RET (spec/42_stack_and_subroutine.md). Effects run left to right, each seeing the earlier
ones (R7, R82 to R84), which is what decides the forms that name register 7. -/

namespace Sys2Proof.Machine

/-- The address PUSH and CALL store to: the stack pointer after its decrement (R32, R80). -/
def pushAddress (s : State) : Byte := s.sp - 1

/-- PUSH a (R82): `x[a]` is read after the decrement, so PUSH R7 stores the decremented SP. -/
def execPush (a : Byte) (s : State) : Host.Outcome State Fault Refusal :=
  commit s (withReg a fun ra => do
    let t ← s.push (fun s1 => .ok (s1.reg ra))
    finish s 2 t)

/-- POP a (R83): `x[a]` is written, then x[7] as it then stands is checked and incremented, so POP R7 ends with the popped
byte plus 1. -/
def execPop (a : Byte) (s : State) : Host.Outcome State Fault Refusal :=
  commit s (withReg a fun ra => do
    let t ← (s.setReg ra (s.memRead s.sp)).incSp
    finish s 2 t)

/-- CALL a (R84): pushes PC + 2, then jumps to `x[a]`, read after the decrement. -/
def execCall (a : Byte) (s : State) : Host.Outcome State Fault Refusal :=
  commit s (withReg a fun ra => do
    let t ← s.push (fun s1 => s1.sequential 2)
    return t.setPc (t.reg ra))

/-- RET (R85): `pc <- pop()`. -/
def execRet (s : State) : Host.Outcome State Fault Refusal :=
  commit s (do
    let (target, t) ← s.pop
    return t.setPc target)

end Sys2Proof.Machine
end

