-- ==== Sys2Proof/Machine/Cycle.lean ====
section
/-! DEFINITION. The fetch-decode-execute cycle (R51), for every OPCODE_MAP and TRACE_ENABLE; the trace (R23); and the
placing of an instruction word where the next fetch reads it. -/

namespace Sys2Proof.Machine

/-- The fetch of R51: three bytes at PC, PC+1, PC+2, or OutOfRangeAddress(256) where the window does not fit (R121(a)),
whatever the opcode. -/
def fetch (s : State) : Except Trap Window :=
  if s.pc.toNat + 2 > 255 then .error ⟨.outOfRangeAddress, 256⟩
  else .ok ⟨s.memRead s.pc, s.memRead (s.pc + 1), s.memRead (s.pc + 2)⟩

/-- The trace record of a step (R23): sampled after the fetch, before the instruction changes anything. -/
def traceRecord (s : State) (w : Window) : TraceRecord := ⟨s.pc, w.ir, w.a, w.b, s.regs⟩

/-- The trace point of R51. -/
def traceStep (cfg : Config) (s : State) (w : Window) : State :=
  if cfg.traceEnable then s.record (traceRecord s w) else s

/-- What the core raises for a window that is no instruction (R122): the datum is the opcode byte. -/
def decodeTrap : DecodeError → Trap
  | .illegalInstruction ir => ⟨.illegalInstruction, ir.toNat⟩

/-- The step of a running core (R51): fetch, trace, decode, execute. The operand check of R51 is the first thing each
meaning does (log 4). -/
def runningCycle (cfg : Config) (s : State) : Host.Outcome State Fault Refusal :=
  match fetch s with
  | .error e => .next (s.raise e.cause e.info)
  | .ok w =>
    match decode cfg w with
    | .error e => .next ((traceStep cfg s w).raise (decodeTrap e).cause (decodeTrap e).info)
    | .ok i => exec i (traceStep cfg s w)

/-- One step under a configuration (R51): "when `RUN` is `Halted` or `Faulted` there is no step". -/
def cycle (cfg : Config) (s : State) : Host.Outcome State Fault Refusal :=
  match s.run with
  | .running => runningCycle cfg s
  | .halted => .fault .coreHalted
  | .faulted cause pc info => .fault (.coreFaulted cause pc info)

/-- The state in which the next step fetches the window `w`: its bytes at PC, PC+1, PC+2, and RUN = Running. Where PC is
254 or 255 no window fits (R51), so PC becomes 0, the entry point (log 8). -/
def placeWindow (s : State) (w : Window) : State :=
  let p : Byte := if s.pc.toNat + 2 > 255 then pcReset else s.pc
  let t : State := ((s.memWrite p w.ir).memWrite (p + 1) w.a).memWrite (p + 2) w.b
  { t with pc := p, run := .running }

end Sys2Proof.Machine
end

