-- ==== Sys2Proof/Machine/Step.lean ====
section
/-! DEFINITION. step: the cycle under the spec's default parameters (R5, R54, 92_eei_decisions.md D1 and D19), and the
placing of a table word where the next fetch reads it. -/

namespace Sys2Proof.Machine

/-- One step of the machine: R51 under the default OPCODE_MAP with TRACE_ENABLE false (log 1, log 2). -/
def step (s : State) : Host.Outcome State Fault Refusal := cycle Config.default s

/-- The state with a word of the opcode table where `step` fetches its next instruction. -/
def State.withFetchWord (s : State) (nbits w : Nat) : State := placeWindow s (Window.ofWord nbits w)

end Sys2Proof.Machine
end

