-- ==== Sys2Proof/Machine/Boot.lean ====
section
/-! DEFINITION. The host's load (R141), which is how a program comes to run from reset (log 8). It is no step of the core. -/

namespace Sys2Proof.Machine

/-- `MemWrite(i, 1, bytes[i])` for i = 0, 1, .. from a first address on (R141). -/
def loadFrom (at_ : Nat) (bytes : List Byte) (m : Memory) : Memory :=
  match bytes with
  | [] => m
  | b :: rest => loadFrom (at_ + 1) rest (m.write at_ b)

/-- `load(bytes)` (R141): memory from address 0, at most 256 bytes, and nothing else; a longer program is refused and the
core is not started. -/
def load (bytes : List Byte) (s : State) : Host.Outcome State Fault Refusal :=
  if bytes.length ≤ memSize then .next { s with mem := loadFrom 0 bytes s.mem }
  else .refused (.programTooLong bytes.length)

/-- Reset, then load (R140, R141): the state the host starts the core in. A program the loader cannot obtain is refused:
ProgramNotFound (R127). DESIGN CHOICE (log 7): the loader's two failures are refusals of this host operation. Safe. -/
def boot (program : Option (List Byte)) : Host.Outcome State Fault Refusal :=
  match program with
  | some bytes => load bytes State.reset
  | none => .refused .programNotFound

end Sys2Proof.Machine
end

