-- ==== Sys2Proof/Safety.lean ====
section
/-! DEFINITION. What counts as a sound state and a precise end of a run, and the spec's tables of who may write what, in
the terms the statements use: the frames, the tables of R11, R32 and R120, the invariant of every step. -/

namespace Sys2Proof.Machine

/-! ## Frames -/

/-- Every register for which `changed` does not hold is as before. -/
def RegsKept (changed : Fin 8 → Prop) (s t : State) : Prop := ∀ r, ¬ changed r → t.reg r = s.reg r

/-- Every memory cell for which `changed` does not hold reads as before; a byte ranges over all 256 addresses. -/
def CellsKept (changed : Byte → Prop) (s t : State) : Prop := ∀ c : Byte, ¬ changed c → t.memRead c = s.memRead c

/-! ## The spec's tables -/

/-- The cell an instruction stores to, if any (R32): ST at x[a], PUSH and CALL at the decremented stack pointer. -/
def storeAddress (i : Instr) (s : State) : Option Byte :=
  match i with
  | .st a _ => (regidx a).toOption.map (stAddress s)
  | .push _ => some (pushAddress s)
  | .call _ => some (pushAddress s)
  | .nop => none
  | .hlt => none
  | .ret => none
  | .pop _ => none
  | .prn _ => none
  | .pra _ => none
  | .jmp _ => none
  | .jeq _ => none
  | .jne _ => none
  | .jgt _ => none
  | .jlt _ => none
  | .jle _ => none
  | .jge _ => none
  | .inc _ => none
  | .dec _ => none
  | .not _ => none
  | .ldi _ _ => none
  | .ld _ _ => none
  | .add _ _ => none
  | .sub _ _ => none
  | .mul _ _ => none
  | .div _ _ => none
  | .mod _ _ => none
  | .cmp _ _ => none
  | .and _ _ => none
  | .or _ _ => none
  | .xor _ _ => none
  | .shl _ _ => none
  | .shr _ _ => none

/-- The registers an instruction may write (R11): its explicit destination, and x[7] for the four stack instructions. -/
def writesReg (i : Instr) (r : Fin 8) : Prop :=
  match i with
  | .ldi a _ => a = regByte r
  | .ld a _ => a = regByte r
  | .add a _ => a = regByte r
  | .sub a _ => a = regByte r
  | .mul a _ => a = regByte r
  | .div a _ => a = regByte r
  | .mod a _ => a = regByte r
  | .and a _ => a = regByte r
  | .or a _ => a = regByte r
  | .xor a _ => a = regByte r
  | .shl a _ => a = regByte r
  | .shr a _ => a = regByte r
  | .not a => a = regByte r
  | .inc a => a = regByte r
  | .dec a => a = regByte r
  | .pop a => a = regByte r ∨ r = spIndex
  | .push _ => r = spIndex
  | .call _ => r = spIndex
  | .ret => r = spIndex
  | .nop => False
  | .hlt => False
  | .prn _ => False
  | .pra _ => False
  | .jmp _ => False
  | .jeq _ => False
  | .jne _ => False
  | .jgt _ => False
  | .jlt _ => False
  | .jle _ => False
  | .jge _ => False
  | .st _ _ => False
  | .cmp _ _ => False

/-- The output event an instruction emits, if any (R22, R75, R76). -/
def emits (i : Instr) (s : State) : Option OutEvent :=
  match i with
  | .prn a => (regidx a).toOption.map (fun r => ⟨.int, s.reg r⟩)
  | .pra a => (regidx a).toOption.map (fun r => ⟨.char, s.reg r⟩)
  | .nop => none
  | .hlt => none
  | .ret => none
  | .push _ => none
  | .pop _ => none
  | .call _ => none
  | .jmp _ => none
  | .jeq _ => none
  | .jne _ => none
  | .jgt _ => none
  | .jlt _ => none
  | .jle _ => none
  | .jge _ => none
  | .inc _ => none
  | .dec _ => none
  | .not _ => none
  | .ldi _ _ => none
  | .ld _ _ => none
  | .st _ _ => none
  | .add _ _ => none
  | .sub _ _ => none
  | .mul _ _ => none
  | .div _ _ => none
  | .mod _ _ => none
  | .cmp _ _ => none
  | .and _ _ => none
  | .or _ _ => none
  | .xor _ _ => none
  | .shl _ _ => none
  | .shr _ _ => none

/-- The register a register operand byte in 0..7 names. -/
def regOf (v : Byte) : Fin 8 := ⟨v.toNat % 8, Nat.mod_lt _ (by decide)⟩

/-- A trap under a condition. -/
def trapWhen (cond : Bool) (cause : Cause) (info : Nat) : Option Trap := if cond then some ⟨cause, info⟩ else none

/-- The value POP's increment acts on (R83): the popped byte where x[7] is the destination, else SP. -/
def popIncrements (a : Byte) (s : State) : Byte := if a = regByte spIndex then s.memRead s.sp else s.sp

/-- The fault of R130 point 5: the instruction's own (R123 to R126), when its operands are in range. -/
def ownFault (i : Instr) (s : State) : Option Trap :=
  match i with
  | .div a b => trapWhen (s.reg (regOf b) == 0) .divideByZero (s.reg (regOf a)).toNat
  | .mod a b => trapWhen (s.reg (regOf b) == 0) .moduloByZero (s.reg (regOf a)).toNat
  | .push _ => trapWhen (s.sp == 0x00) .stackOverflow 0x00
  | .call _ => trapWhen (s.sp == 0x00) .stackOverflow 0x00
  | .pop a => trapWhen (popIncrements a s == 0xFF) .stackUnderflow 0xFF
  | .ret => trapWhen (s.sp == 0xFF) .stackUnderflow 0xFF
  | .nop => none
  | .hlt => none
  | .prn _ => none
  | .pra _ => none
  | .jmp _ => none
  | .jeq _ => none
  | .jne _ => none
  | .jgt _ => none
  | .jlt _ => none
  | .jle _ => none
  | .jge _ => none
  | .inc _ => none
  | .dec _ => none
  | .not _ => none
  | .ldi _ _ => none
  | .ld _ _ => none
  | .st _ _ => none
  | .add _ _ => none
  | .sub _ _ => none
  | .mul _ _ => none
  | .cmp _ _ => none
  | .and _ _ => none
  | .or _ _ => none
  | .xor _ _ => none
  | .shl _ _ => none
  | .shr _ _ => none

/-- The fault of R130 point 6: the sequential advance of R55 past address 255. -/
def advanceFault (i : Instr) (s : State) : Option Trap :=
  match i.mnemonic.adv with
  | some n => trapWhen (decide (s.pc.toNat + n > 255)) .outOfRangeAddress (s.pc.toNat + n)
  | none => none

/-- The one fault a step of a running core reports, or none: the list of R120 in the order of R130. -/
def expectedTrap (cfg : Config) (s : State) : Option Trap :=
  if s.pc.toNat > 253 then some ⟨.outOfRangeAddress, 256⟩
  else
    match decode cfg ⟨s.memRead s.pc, s.memRead (s.pc + 1), s.memRead (s.pc + 2)⟩ with
    | .error _ => some ⟨.illegalInstruction, (s.memRead s.pc).toNat⟩
    | .ok i =>
      match i.firstBadOperand with
      | some v => some ⟨.outOfRangeAddress, v.toNat⟩
      | none => (ownFault i s).or (advanceFault i s)

/-! ## The invariant -/

/-- The values FL can take (R18): none or exactly one of E, G, L. -/
def FlagsLegal (s : State) : Prop := s.fl = 0b000#3 ∨ s.fl = 0b001#3 ∨ s.fl = 0b010#3 ∨ s.fl = 0b100#3

/-- What a fault record says of the state it was raised in, which is the state it is found in (R120, R129). -/
def FaultRecordTrue (cfg : Config) (s : State) (cause : Cause) (info : Nat) : Prop :=
  match cause with
  | .outOfRangeAddress => (info = 256 ∧ 253 ≤ s.pc.toNat) ∨ (8 ≤ info ∧ info ≤ 255 ∧ s.pc.toNat ≤ 253)
  | .illegalInstruction =>
    s.pc.toNat ≤ 253 ∧ info = (s.memRead s.pc).toNat ∧ ∀ m, cfg.opcodeOf m ≠ s.memRead s.pc
  | .divideByZero =>
    s.pc.toNat ≤ 253 ∧ s.memRead s.pc = cfg.opcodeOf .div ∧
      ∃ a b, s.memRead (s.pc + 1) = regByte a ∧ s.memRead (s.pc + 2) = regByte b ∧
        s.reg b = 0 ∧ info = (s.reg a).toNat
  | .moduloByZero =>
    s.pc.toNat ≤ 253 ∧ s.memRead s.pc = cfg.opcodeOf .mod ∧
      ∃ a b, s.memRead (s.pc + 1) = regByte a ∧ s.memRead (s.pc + 2) = regByte b ∧
        s.reg b = 0 ∧ info = (s.reg a).toNat
  | .stackOverflow =>
    s.pc.toNat ≤ 253 ∧ (s.memRead s.pc = cfg.opcodeOf .push ∨ s.memRead s.pc = cfg.opcodeOf .call) ∧
      s.sp = 0x00 ∧ info = 0x00
  | .stackUnderflow =>
    s.pc.toNat ≤ 253 ∧ (s.memRead s.pc = cfg.opcodeOf .pop ∨ (s.memRead s.pc = cfg.opcodeOf .ret ∧ s.sp = 0xFF)) ∧
      info = 0xFF

/-- What RUN says of the state it is found in: a halted core stands at an HLT that could be fetched (R77), a faulted one at
the instruction its record names (R129). -/
def EndTrue (cfg : Config) (s : State) : Prop :=
  match s.run with
  | .running => True
  | .halted => s.pc.toNat ≤ 253 ∧ s.memRead s.pc = cfg.opcodeOf .hlt
  | .faulted cause pc info => pc = s.pc ∧ FaultRecordTrue cfg s cause info

/-- The invariant of every step: memory in its canonical form, FL one of its four values, the end of a run told truly, and
no trace where tracing is off. -/
structure Inv (cfg : Config) (s : State) : Prop where
  memory : s.mem.wf = true
  flags : FlagsLegal s
  ended : EndTrue cfg s
  trace : cfg.traceEnable = false → s.trace = []

/-- The machine under a configuration, as the host's interface has it. -/
def coreFor (cfg : Config) : Host.Core := { State := State, Fault := Fault, Refusal := Refusal, step := cycle cfg, reset := State.reset }

/-- An outcome with the trace stream left out. -/
def eraseTrace : Host.Outcome State Fault Refusal → Host.Outcome State Fault Refusal
  | .next t => .next { t with trace := [] }
  | .fault r => .fault r
  | .refused r => .refused r

end Sys2Proof.Machine
end

