-- ==== Sys2Proof/Certificates/Slice0/Obligations.lean ====
section
/-! DEFINITION. The statements for the provers, from the numbered rules of spec/. First the shapes that several statements
share, then the statements. Where a clause rests on a decision of spec/92_eei_decisions.md the docstring names it; opcode
numbers appear only in the statements that say so. -/

namespace Sys2Proof.Machine

/-! ## Shapes -/

/-- The result of performing `i` in `s` is the fault entered from `s`, and nothing else (R129, D8). -/
def RaisesIn (i : Instr) (s : State) (cause : Cause) (info : Nat) : Prop :=
  exec i s = .next { s with run := .faulted cause s.pc info }

/-- Everything but the registers, PC and memory is as before. -/
def RestKept (s t : State) : Prop := t.fl = s.fl ∧ t.run = s.run ∧ t.out = s.out ∧ t.trace = s.trace

/-- Nothing but PC, and the registers for which `changed` holds, differs. -/
def OnlyRegs (changed : Fin 8 → Prop) (s t : State) : Prop :=
  RegsKept changed s t ∧ CellsKept (fun _ => False) s t ∧ RestKept s t

/-- An instruction of format R: its bytes decode to it whatever the third byte is, and an operand byte above 7 raises
OutOfRangeAddress with that byte (R14, R52). -/
def FormatR (m : Mnemonic) (mk : Byte → Instr) : Prop :=
  (∀ (cfg : Config) (a x : Byte), decode cfg ⟨cfg.opcodeOf m, a, x⟩ = .ok (mk a)) ∧
  (∀ (a : Byte) (s : State), 7 < a.toNat → RaisesIn (mk a) s .outOfRangeAddress a.toNat)

/-- An instruction of format RR: its bytes decode to it, and operand bytes above 7 raise OutOfRangeAddress, `a` before `b`
(R14, R52). -/
def FormatRR (m : Mnemonic) (mk : Byte → Byte → Instr) : Prop :=
  (∀ (cfg : Config) (a b : Byte), decode cfg ⟨cfg.opcodeOf m, a, b⟩ = .ok (mk a b)) ∧
  (∀ (a b : Byte) (s : State), 7 < a.toNat → RaisesIn (mk a b) s .outOfRangeAddress a.toNat) ∧
  (∀ (a b : Byte) (s : State), a.toNat ≤ 7 → 7 < b.toNat → RaisesIn (mk a b) s .outOfRangeAddress b.toNat)

/-- An instruction of format Z: its bytes decode to it whatever the other two are (R52). -/
def FormatZ (m : Mnemonic) (i : Instr) : Prop :=
  ∀ (cfg : Config) (x y : Byte), decode cfg ⟨cfg.opcodeOf m, x, y⟩ = .ok i

/-- A two-operand ALU instruction that no operand value makes fault: `f` is its result on the unsigned values; its advance
of 3 past address 255 raises OutOfRangeAddress and commits nothing. -/
def Alu2Rule (m : Mnemonic) (mk : Byte → Byte → Instr) (f : Nat → Nat → Nat) : Prop :=
  FormatRR m mk ∧
  (∀ (a b : Fin 8) (s : State), 255 < s.pc.toNat + 3 →
    RaisesIn (mk (regByte a) (regByte b)) s .outOfRangeAddress (s.pc.toNat + 3)) ∧
  (∀ (a b : Fin 8) (s : State), s.pc.toNat + 3 ≤ 255 →
    ∃ t, exec (mk (regByte a) (regByte b)) s = .next t ∧ (t.reg a).toNat = f (s.reg a).toNat (s.reg b).toNat ∧
      t.pc.toNat = s.pc.toNat + 3 ∧ OnlyRegs (· = a) s t)

/-- A two-operand ALU instruction that faults on a zero divisor, with the dividend as datum, before anything else it does
after its operand check. -/
def DivisionRule (m : Mnemonic) (mk : Byte → Byte → Instr) (cause : Cause) (f : Nat → Nat → Nat) : Prop :=
  FormatRR m mk ∧
  (∀ (a b : Fin 8) (s : State), s.reg b = 0 → RaisesIn (mk (regByte a) (regByte b)) s cause (s.reg a).toNat) ∧
  (∀ (a b : Fin 8) (s : State), s.reg b ≠ 0 → 255 < s.pc.toNat + 3 →
    RaisesIn (mk (regByte a) (regByte b)) s .outOfRangeAddress (s.pc.toNat + 3)) ∧
  (∀ (a b : Fin 8) (s : State), s.reg b ≠ 0 → s.pc.toNat + 3 ≤ 255 →
    ∃ t, exec (mk (regByte a) (regByte b)) s = .next t ∧ (t.reg a).toNat = f (s.reg a).toNat (s.reg b).toNat ∧
      t.pc.toNat = s.pc.toNat + 3 ∧ OnlyRegs (· = a) s t)

/-- INC or DEC: advance 2, no check of the stack pointer. -/
def StepByOneRule (m : Mnemonic) (mk : Byte → Instr) (f : Nat → Nat) : Prop :=
  FormatR m mk ∧
  (∀ (a : Fin 8) (s : State), s.pc.toNat + 2 ≤ 255 →
    ∃ t, exec (mk (regByte a)) s = .next t ∧ (t.reg a).toNat = f (s.reg a).toNat ∧
      t.pc.toNat = s.pc.toNat + 2 ∧ OnlyRegs (· = a) s t)

/-- An output instruction: one event of its kind at the end of OUT, advance 2. -/
def OutputRule (m : Mnemonic) (mk : Byte → Instr) (kind : OutKind) : Prop :=
  FormatR m mk ∧
  (∀ (a : Fin 8) (s : State), s.pc.toNat + 2 ≤ 255 →
    ∃ t, exec (mk (regByte a)) s = .next t ∧ t.out = s.out ++ [⟨kind, s.reg a⟩] ∧ t.pc.toNat = s.pc.toNat + 2 ∧
      RegsKept (fun _ => False) s t ∧ CellsKept (fun _ => False) s t ∧
      t.fl = s.fl ∧ t.run = s.run ∧ t.trace = s.trace)

/-- A jump whose condition is a Boolean function of FL: taken, PC becomes x[a]; not taken, PC + 2; nothing else changes. -/
def JumpRule (m : Mnemonic) (mk : Byte → Instr) (cond : BitVec 3 → Bool) : Prop :=
  FormatR m mk ∧
  (∀ (a : Fin 8) (s : State), cond s.fl = true →
    ∃ t, exec (mk (regByte a)) s = .next t ∧ t.pc = s.reg a ∧ OnlyRegs (fun _ => False) s t) ∧
  (∀ (a : Fin 8) (s : State), cond s.fl = false → s.pc.toNat + 2 ≤ 255 →
    ∃ t, exec (mk (regByte a)) s = .next t ∧ t.pc.toNat = s.pc.toNat + 2 ∧ OnlyRegs (fun _ => False) s t)

/-- After a CMP of x[a] with x[b], the conditional jump `mk` is taken exactly when `rel` holds of the two values. -/
def JumpsWhen (mk : Byte → Instr) (rel : Nat → Nat → Prop) : Prop :=
  ∀ (a b c : Fin 8) (s : State), s.pc.toNat + 5 ≤ 255 →
    ∃ t u, exec (.cmp (regByte a) (regByte b)) s = .next t ∧ exec (mk (regByte c)) t = .next u ∧
      (rel (s.reg a).toNat (s.reg b).toNat → u.pc = s.reg c) ∧
      (¬ rel (s.reg a).toNat (s.reg b).toNat → u.pc.toNat = s.pc.toNat + 5) ∧
      RegsKept (fun _ => False) s u ∧ CellsKept (fun _ => False) s u

/-- The bytes of the fetch window at PC. -/
def windowAt (s : State) : Window := ⟨s.memRead s.pc, s.memRead (s.pc + 1), s.memRead (s.pc + 2)⟩

/-- The trace record of a step that fetches `w` in `s`, as R23 lists it. -/
def withRecord (cfg : Config) (s : State) (w : Window) : State :=
  if cfg.traceEnable = true then { s with trace := s.trace ++ [⟨s.pc, w.ir, w.a, w.b, s.regs⟩] } else s

end Sys2Proof.Machine

open Sys2Proof Sys2Proof.Machine

/-! ## Encoding -/

/-- R52, R54, R56, R58: seven words written out from the table of the opcodes and the operand order decode to the
instructions they stand for, and one whose opcode byte no mnemonic has is rejected (D28). The numbers are the default
OPCODE_MAP (log 1, PRESUMED: general knowledge in the spec). -/
def Obligations.SampleWordsDecode : Prop :=
  decode Config.default ⟨0b10000010, 0x00, 0x08⟩ = .ok (.ldi 0 8) ∧
  decode Config.default ⟨0b10000100, 0x01, 0x02⟩ = .ok (.st 1 2) ∧
  decode Config.default ⟨0b01000101, 0x01, 0x99⟩ = .ok (.push 1) ∧
  decode Config.default ⟨0b01011010, 0x06, 0x00⟩ = .ok (.jge 6) ∧
  decode Config.default ⟨0b10100001, 0x03, 0x04⟩ = .ok (.sub 3 4) ∧
  decode Config.default ⟨0b00010001, 0x55, 0xAA⟩ = .ok .ret ∧
  decode Config.default ⟨0b01101001, 0x02, 0xEE⟩ = .ok (.not 2) ∧
  decode Config.default ⟨0b01010010, 0x00, 0x00⟩ = .error (.illegalInstruction 0x52)

/-- R54: every row of the default table, for every value of the two operand bytes. The numbers are the default OPCODE_MAP
(log 1, PRESUMED). -/
def Obligations.DefaultTableDecodes : Prop := ∀ a b : Byte,
  decode Config.default ⟨0x00, a, b⟩ = .ok .nop ∧ decode Config.default ⟨0x01, a, b⟩ = .ok .hlt ∧
  decode Config.default ⟨0x11, a, b⟩ = .ok .ret ∧ decode Config.default ⟨0x45, a, b⟩ = .ok (.push a) ∧
  decode Config.default ⟨0x46, a, b⟩ = .ok (.pop a) ∧ decode Config.default ⟨0x47, a, b⟩ = .ok (.prn a) ∧
  decode Config.default ⟨0x48, a, b⟩ = .ok (.pra a) ∧ decode Config.default ⟨0x50, a, b⟩ = .ok (.call a) ∧
  decode Config.default ⟨0x54, a, b⟩ = .ok (.jmp a) ∧ decode Config.default ⟨0x55, a, b⟩ = .ok (.jeq a) ∧
  decode Config.default ⟨0x56, a, b⟩ = .ok (.jne a) ∧ decode Config.default ⟨0x57, a, b⟩ = .ok (.jgt a) ∧
  decode Config.default ⟨0x58, a, b⟩ = .ok (.jlt a) ∧ decode Config.default ⟨0x59, a, b⟩ = .ok (.jle a) ∧
  decode Config.default ⟨0x5A, a, b⟩ = .ok (.jge a) ∧ decode Config.default ⟨0x65, a, b⟩ = .ok (.inc a) ∧
  decode Config.default ⟨0x66, a, b⟩ = .ok (.dec a) ∧ decode Config.default ⟨0x69, a, b⟩ = .ok (.not a) ∧
  decode Config.default ⟨0x82, a, b⟩ = .ok (.ldi a b) ∧ decode Config.default ⟨0x83, a, b⟩ = .ok (.ld a b) ∧
  decode Config.default ⟨0x84, a, b⟩ = .ok (.st a b) ∧ decode Config.default ⟨0xA0, a, b⟩ = .ok (.add a b) ∧
  decode Config.default ⟨0xA1, a, b⟩ = .ok (.sub a b) ∧ decode Config.default ⟨0xA2, a, b⟩ = .ok (.mul a b) ∧
  decode Config.default ⟨0xA3, a, b⟩ = .ok (.div a b) ∧ decode Config.default ⟨0xA4, a, b⟩ = .ok (.mod a b) ∧
  decode Config.default ⟨0xA7, a, b⟩ = .ok (.cmp a b) ∧ decode Config.default ⟨0xA8, a, b⟩ = .ok (.and a b) ∧
  decode Config.default ⟨0xAA, a, b⟩ = .ok (.or a b) ∧ decode Config.default ⟨0xAB, a, b⟩ = .ok (.xor a b) ∧
  decode Config.default ⟨0xAC, a, b⟩ = .ok (.shl a b) ∧ decode Config.default ⟨0xAD, a, b⟩ = .ok (.shr a b)

/-- Under every OPCODE_MAP, the bytes of every instruction, well formed or not, decode to it whatever bytes follow them. -/
def Obligations.DecodeOfEncodeIsTheInstruction : Prop :=
  ∀ (cfg : Config) (i : Instr) (rest : List Byte), decode cfg (Window.ofBytes (encode cfg i ++ rest)) = .ok i

/-- The other direction: a window that decodes begins with the encoding of what it decodes to, so no other instruction's
bytes and no altered operand byte decode to it. -/
def Obligations.DecodedWindowBeginsWithEncoding : Prop :=
  ∀ (cfg : Config) (w : Window) (i : Instr), decode cfg w = .ok i →
    encode cfg i = [w.ir, w.a, w.b].take (encode cfg i).length

/-- R56: the bytes that are not the image of a mnemonic are exactly those whose decoding is rejected, and they are 224 of
the 256, under every OPCODE_MAP. -/
def Obligations.UnmappedOpcodesAreIllegal : Prop :=
  (∀ (cfg : Config) (w : Window),
    decode cfg w = .error (.illegalInstruction w.ir) ↔ ∀ m, cfg.opcodeOf m ≠ w.ir) ∧
  (∀ cfg : Config, ((List.range 256).filter (fun v =>
    (mnemonicOf cfg.opcodeOf (BitVec.ofNat 8 v)).isNone)).length = 224)

/-- R52: the bytes a format calls "fetched, ignored" have no effect on what is decoded; formats RR and RI ignore neither
operand byte. That NOT is of format R, its third byte ignored, is the spec's decision D4. -/
def Obligations.IgnoredBytesHaveNoEffect : Prop :=
  ∀ (cfg : Config) (m : Mnemonic) (a b x y : Byte),
    (m.format = .z → decode cfg ⟨cfg.opcodeOf m, a, b⟩ = decode cfg ⟨cfg.opcodeOf m, x, y⟩) ∧
    (m.format = .r → decode cfg ⟨cfg.opcodeOf m, a, b⟩ = decode cfg ⟨cfg.opcodeOf m, a, y⟩) ∧
    (m.format = .rr ∨ m.format = .ri → (a, b) ≠ (x, y) →
      decode cfg ⟨cfg.opcodeOf m, a, b⟩ ≠ decode cfg ⟨cfg.opcodeOf m, x, y⟩)

/-- R14 (D10): an instruction with a register operand byte above 7 raises OutOfRangeAddress with the first such byte, in
every state and whatever else it would do; the instructions that have none are exactly the well-formed ones. -/
def Obligations.BadRegisterOperandFaults : Prop :=
  ∀ (i : Instr),
    (i.wf = true ↔ i.firstBadOperand = none) ∧
    (∀ (v : Byte) (s : State), i.firstBadOperand = some v → RaisesIn i s .outOfRangeAddress v.toNat)

/-! ## The cycle -/

/-- When the bytes at PC decode to an instruction, the step of a running core is that instruction performed in the same
state; under any configuration, in that state with the step's trace record added if tracing is on. -/
def Obligations.StepRunsTheDecodedInstruction : Prop :=
  (∀ (s : State) (i : Instr), s.run = .running → s.pc.toNat ≤ 253 →
    decode Config.default (windowAt s) = .ok i → step s = exec i s) ∧
  (∀ (cfg : Config) (s : State) (i : Instr), s.run = .running → s.pc.toNat ≤ 253 →
    decode cfg (windowAt s) = .ok i → cycle cfg s = exec i (withRecord cfg s (windowAt s)))

/-- R121(a) (D6): with PC at 254 or 255 the fetch raises OutOfRangeAddress(256), whatever the bytes are and before the trace
point. -/
def Obligations.FetchWindowFaults : Prop :=
  ∀ (cfg : Config) (s : State), s.run = .running → 253 < s.pc.toNat →
    cycle cfg s = .next { s with run := .faulted .outOfRangeAddress s.pc 256 }

/-- R122: an opcode byte with no mnemonic raises IllegalInstruction with that byte at its address, whatever the operand
bytes are. -/
def Obligations.IllegalOpcodeFaults : Prop :=
  ∀ (cfg : Config) (s : State), s.run = .running → s.pc.toNat ≤ 253 → (∀ m, cfg.opcodeOf m ≠ s.memRead s.pc) →
    cycle cfg s = .next { withRecord cfg s (windowAt s) with
      run := .faulted .illegalInstruction s.pc (s.memRead s.pc).toNat }

/-- R51, R19: a running core always has a next state; a halted or faulted one has no step. That "no step" is a fault of the
model's own is its choice (log 3, DESIGN CHOICE). -/
def Obligations.ExactlyRunningCoresStep : Prop :=
  ∀ (cfg : Config) (s : State),
    (s.run = .running → ∃ t, cycle cfg s = .next t) ∧
    (s.run = .halted → cycle cfg s = .fault .coreHalted) ∧
    (∀ cause pc info, s.run = .faulted cause pc info → cycle cfg s = .fault (.coreFaulted cause pc info))

/-- R120, R130, R129 (D8, D9, D27): a step of a running core faults exactly when the list of R120 says so, reports the first
fault of R130's order, and then changes nothing but RUN (and the trace record, except for a fetch-window fault). -/
def Obligations.FaultsFollowTheListAndItsPriority : Prop :=
  ∀ (cfg : Config) (s t : State), s.run = .running → cycle cfg s = .next t →
    (∀ trap, expectedTrap cfg s = some trap →
      t = { (if 253 < s.pc.toNat then s else withRecord cfg s (windowAt s)) with
            run := .faulted trap.cause s.pc trap.info }) ∧
    (expectedTrap cfg s = none → t.run = .running ∨ t.run = .halted)

/-- R19, R77, R143: only a running core steps; it ends Halted exactly when the byte at PC is the opcode of HLT and could be
fetched. -/
def Obligations.OnlyHltHalts : Prop :=
  ∀ (cfg : Config) (s t : State), cycle cfg s = .next t →
    s.run = .running ∧ (t.run = .halted ↔ (s.pc.toNat ≤ 253 ∧ s.memRead s.pc = cfg.opcodeOf .hlt))

/-- R23, R137 (D19): tracing adds exactly one record to each step whose fetch succeeds and has no other effect. -/
def Obligations.TracingHasNoOtherEffect : Prop :=
  ∀ (cfg : Config) (s t : State), cfg.traceEnable = true →
    (eraseTrace (cycle cfg s) = eraseTrace (cycle { cfg with traceEnable := false } s)) ∧
    (cycle cfg s = .next t →
      t.trace = if 253 < s.pc.toNat then s.trace
        else s.trace ++ [⟨s.pc, s.memRead s.pc, s.memRead (s.pc + 1), s.memRead (s.pc + 2), s.regs⟩])

/-! ## Data movement, output, control -/

/-- R70. -/
def Obligations.LdiLoadsItsLiteral : Prop :=
  (∀ (cfg : Config) (a b : Byte), decode cfg ⟨cfg.opcodeOf .ldi, a, b⟩ = .ok (.ldi a b)) ∧
  (∀ (a b : Byte) (s : State), 7 < a.toNat → RaisesIn (.ldi a b) s .outOfRangeAddress a.toNat) ∧
  (∀ (a : Fin 8) (b : Byte) (s : State), 255 < s.pc.toNat + 3 →
    RaisesIn (.ldi (regByte a) b) s .outOfRangeAddress (s.pc.toNat + 3)) ∧
  (∀ (a : Fin 8) (b : Byte) (s : State), s.pc.toNat + 3 ≤ 255 →
    ∃ t, exec (.ldi (regByte a) b) s = .next t ∧ t.reg a = b ∧ t.pc.toNat = s.pc.toNat + 3 ∧ OnlyRegs (· = a) s t)

/-- R71. -/
def Obligations.LdLoadsTheAddressedByte : Prop :=
  FormatRR .ld .ld ∧
  (∀ (a b : Fin 8) (s : State), 255 < s.pc.toNat + 3 →
    RaisesIn (.ld (regByte a) (regByte b)) s .outOfRangeAddress (s.pc.toNat + 3)) ∧
  (∀ (a b : Fin 8) (s : State), s.pc.toNat + 3 ≤ 255 →
    ∃ t, exec (.ld (regByte a) (regByte b)) s = .next t ∧ t.reg a = s.memRead (s.reg b) ∧
      t.pc.toNat = s.pc.toNat + 3 ∧ OnlyRegs (· = a) s t)

/-- R72: x[b] goes to the cell x[a]; every other cell and every register is as before; the advance is 2. -/
def Obligations.StStoresToTheAddressedCell : Prop :=
  FormatRR .st .st ∧
  (∀ (a b : Fin 8) (s : State), s.pc.toNat + 2 ≤ 255 →
    ∃ t, exec (.st (regByte a) (regByte b)) s = .next t ∧ t.memRead (stAddress s a) = s.reg b ∧
      stAddress s a = s.reg a ∧ t.pc.toNat = s.pc.toNat + 2 ∧
      CellsKept (· = stAddress s a) s t ∧ RegsKept (fun _ => False) s t ∧ RestKept s t)

/-- R75, R76. -/
def Obligations.PrnAndPraEmitTheRegister : Prop :=
  OutputRule .prn .prn .int ∧ OutputRule .pra .pra .char

/-- R77; that PC keeps the address of the HLT is the spec's decision D16. -/
def Obligations.HltOnlyEndsTheRun : Prop :=
  FormatZ .hlt .hlt ∧
  (∀ s : State, ∃ t, exec .hlt s = .next t ∧ t.run = .halted ∧ t.pc = s.pc ∧
    RegsKept (fun _ => False) s t ∧ CellsKept (fun _ => False) s t ∧ t.fl = s.fl ∧ t.out = s.out ∧ t.trace = s.trace)

/-- R78. -/
def Obligations.NopOnlyAdvancesByTwo : Prop :=
  FormatZ .nop .nop ∧
  (∀ s : State, s.pc.toNat + 2 ≤ 255 →
    ∃ t, exec .nop s = .next t ∧ t.pc.toNat = s.pc.toNat + 2 ∧ OnlyRegs (fun _ => False) s t)

/-! ## Stack and subroutine -/

/-- R80, R82; the bound of the stack is D11, the order of the effects (PUSH R7 stores the decremented SP) D20. -/
def Obligations.PushStoresBelowTheStackPointer : Prop :=
  FormatR .push .push ∧
  (∀ (a : Fin 8) (s : State), s.sp = 0x00 → RaisesIn (.push (regByte a)) s .stackOverflow 0x00) ∧
  (∀ (a : Fin 8) (s : State), s.sp ≠ 0x00 → s.pc.toNat + 2 ≤ 255 →
    ∃ t, exec (.push (regByte a)) s = .next t ∧ t.sp.toNat = s.sp.toNat - 1 ∧ pushAddress s = t.sp ∧
      t.memRead (pushAddress s) = (if a = spIndex then t.sp else s.reg a) ∧ t.pc.toNat = s.pc.toNat + 2 ∧
      RegsKept (· = spIndex) s t ∧ CellsKept (· = pushAddress s) s t ∧ RestKept s t)

/-- R81, R83; the bound of the stack is D11, the order of the effects (POP R7 ends one above the popped byte) D20. -/
def Obligations.PopLoadsThenIncrements : Prop :=
  FormatR .pop .pop ∧
  (∀ (a : Fin 8) (s : State), (if a = spIndex then s.memRead s.sp else s.sp) = 0xFF →
    RaisesIn (.pop (regByte a)) s .stackUnderflow 0xFF) ∧
  (∀ (a : Fin 8) (s : State), a ≠ spIndex → s.sp ≠ 0xFF → s.pc.toNat + 2 ≤ 255 →
    ∃ t, exec (.pop (regByte a)) s = .next t ∧ t.reg a = s.memRead s.sp ∧ t.sp.toNat = s.sp.toNat + 1 ∧
      t.pc.toNat = s.pc.toNat + 2 ∧ OnlyRegs (fun r => r = a ∨ r = spIndex) s t) ∧
  (∀ s : State, s.memRead s.sp ≠ 0xFF → s.pc.toNat + 2 ≤ 255 →
    ∃ t, exec (.pop (regByte spIndex)) s = .next t ∧ t.sp.toNat = (s.memRead s.sp).toNat + 1 ∧
      t.pc.toNat = s.pc.toNat + 2 ∧ OnlyRegs (· = spIndex) s t)

/-- R80, R84; the bound of the stack is D11, the order of the effects (CALL R7 jumps to the decremented SP) D20. -/
def Obligations.CallPushesTheReturnAddress : Prop :=
  FormatR .call .call ∧
  (∀ (a : Fin 8) (s : State), s.sp = 0x00 → RaisesIn (.call (regByte a)) s .stackOverflow 0x00) ∧
  (∀ (a : Fin 8) (s : State), s.sp ≠ 0x00 → s.pc.toNat + 2 ≤ 255 →
    ∃ t, exec (.call (regByte a)) s = .next t ∧ t.sp.toNat = s.sp.toNat - 1 ∧ pushAddress s = t.sp ∧
      (t.memRead (pushAddress s)).toNat = s.pc.toNat + 2 ∧ t.pc = (if a = spIndex then t.sp else s.reg a) ∧
      RegsKept (· = spIndex) s t ∧ CellsKept (· = pushAddress s) s t ∧ RestKept s t)

/-- R85. -/
def Obligations.RetPopsTheProgramCounter : Prop :=
  FormatZ .ret .ret ∧
  (∀ s : State, s.sp = 0xFF → RaisesIn .ret s .stackUnderflow 0xFF) ∧
  (∀ s : State, s.sp ≠ 0xFF →
    ∃ t, exec .ret s = .next t ∧ t.pc = s.memRead s.sp ∧ t.sp.toNat = s.sp.toNat + 1 ∧ OnlyRegs (· = spIndex) s t)

/-- R83 (source property): a PUSH r followed by a POP r', r and r' not 7 and SP not 0, restores the value into r' and SP. -/
def Obligations.PushThenPopRestores : Prop :=
  ∀ (r r' : Fin 8) (s : State), r ≠ spIndex → r' ≠ spIndex → s.sp ≠ 0x00 → s.pc.toNat + 4 ≤ 255 →
    ∃ t u, exec (.push (regByte r)) s = .next t ∧ exec (.pop (regByte r')) t = .next u ∧
      u.reg r' = s.reg r ∧ u.sp = s.sp ∧ u.pc.toNat = s.pc.toNat + 4 ∧
      RegsKept (· = r') s u ∧ CellsKept (· = pushAddress s) s u ∧ RestKept s u

/-- R85 (source property): a RET executed in the state a CALL left resumes after the CALL's operand, with SP restored. -/
def Obligations.RetUndoesCall : Prop :=
  ∀ (a : Fin 8) (s : State), s.sp ≠ 0x00 → s.pc.toNat + 2 ≤ 255 →
    ∃ t u, exec (.call (regByte a)) s = .next t ∧ exec .ret t = .next u ∧ u.pc.toNat = s.pc.toNat + 2 ∧
      RegsKept (fun _ => False) s u ∧ CellsKept (· = pushAddress s) s u ∧ RestKept s u

/-! ## Compare and jumps -/

/-- R91; that the comparison is unsigned is the spec's decision D14. -/
def Obligations.CmpSetsExactlyOneFlag : Prop :=
  FormatRR .cmp .cmp ∧
  (∀ (a b : Fin 8) (s : State), 255 < s.pc.toNat + 3 →
    RaisesIn (.cmp (regByte a) (regByte b)) s .outOfRangeAddress (s.pc.toNat + 3)) ∧
  (∀ (a b : Fin 8) (s : State), s.pc.toNat + 3 ≤ 255 →
    ∃ t, exec (.cmp (regByte a) (regByte b)) s = .next t ∧
      ((s.reg a).toNat = (s.reg b).toNat → t.fl = 0b001#3) ∧
      ((s.reg a).toNat > (s.reg b).toNat → t.fl = 0b010#3) ∧
      ((s.reg a).toNat < (s.reg b).toNat → t.fl = 0b100#3) ∧
      t.pc.toNat = s.pc.toNat + 3 ∧ RegsKept (fun _ => False) s t ∧ CellsKept (fun _ => False) s t ∧
      t.run = s.run ∧ t.out = s.out ∧ t.trace = s.trace)

/-- R92. -/
def Obligations.JmpAlwaysJumps : Prop :=
  FormatR .jmp .jmp ∧
  (∀ (a : Fin 8) (s : State), ∃ t, exec (.jmp (regByte a)) s = .next t ∧ t.pc = s.reg a ∧ OnlyRegs (fun _ => False) s t)

/-- R93, R95 to R98, on all eight values of FL. -/
def Obligations.ConditionalJumpsReadTheirFlags : Prop :=
  JumpRule .jeq .jeq (fun fl => fl.getLsbD 0) ∧
  JumpRule .jgt .jgt (fun fl => fl.getLsbD 1) ∧
  JumpRule .jge .jge (fun fl => fl.getLsbD 1 || fl.getLsbD 0) ∧
  JumpRule .jlt .jlt (fun fl => fl.getLsbD 2) ∧
  JumpRule .jle .jle (fun fl => fl.getLsbD 2 || fl.getLsbD 0)

/-- R94; that JNE is taken at FL = 0b000 is the spec's decision D15. -/
def Obligations.JneJumpsWhenEqualIsClear : Prop := JumpRule .jne .jne (fun fl => !fl.getLsbD 0)

/-- R90, R91: after a CMP the six conditional jumps test the six unsigned relations of its operands (D14). -/
def Obligations.CmpThenJumpTestsTheRelation : Prop :=
  JumpsWhen .jeq (· = ·) ∧ JumpsWhen .jne (· ≠ ·) ∧ JumpsWhen .jgt (· > ·) ∧ JumpsWhen .jge (· ≥ ·) ∧
  JumpsWhen .jlt (· < ·) ∧ JumpsWhen .jle (· ≤ ·)

/-! ## ALU -/

/-- R101, R103; that a result is reduced modulo 256 is the spec's decision D2 (R100(b)). -/
def Obligations.AddAndMulWrap : Prop :=
  Alu2Rule .add .add (fun x y => (x + y) % 256) ∧ Alu2Rule .mul .mul (fun x y => (x * y) % 256)

/-- R106, R107, R108. -/
def Obligations.AndOrXorResults : Prop :=
  Alu2Rule .and .and (fun x y => x &&& y) ∧
  Alu2Rule .or .or (fun x y => x ||| y) ∧
  Alu2Rule .xor .xor (fun x y => x ^^^ y)

/-- R102; that SUB subtracts, where the reference adds, is the spec's decision D3 (C3). -/
def Obligations.SubSubtractsModulo256 : Prop := Alu2Rule .sub .sub (fun x y => (256 + x - y) % 256)

/-- R104, R105, R123, R124; the unsigned floor quotient and its remainder are the spec's decision D12. -/
def Obligations.DivAndModResults : Prop :=
  DivisionRule .div .div .divideByZero (fun x y => x / y) ∧ DivisionRule .mod .mod .moduloByZero (fun x y => x % y)

/-- R105: the quotient DIV leaves and the remainder MOD leaves, from one state, give the dividend back (D12). -/
def Obligations.QuotientAndRemainderRecompose : Prop :=
  ∀ (a b : Fin 8) (s : State), s.reg b ≠ 0 → s.pc.toNat + 3 ≤ 255 →
    ∃ t u, exec (.div (regByte a) (regByte b)) s = .next t ∧ exec (.mod (regByte a) (regByte b)) s = .next u ∧
      (s.reg a).toNat = (t.reg a).toNat * (s.reg b).toNat + (u.reg a).toNat ∧ (u.reg a).toNat < (s.reg b).toNat

/-- R109; that the third byte is no operand is the spec's decision D4. NOT of x is 255 - x, and twice gives x back. -/
def Obligations.NotComplementsAndSkipsAByte : Prop :=
  FormatR .not .not ∧
  (∀ (a : Fin 8) (s : State), 255 < s.pc.toNat + 3 →
    RaisesIn (.not (regByte a)) s .outOfRangeAddress (s.pc.toNat + 3)) ∧
  (∀ (a : Fin 8) (s : State), s.pc.toNat + 3 ≤ 255 →
    ∃ t, exec (.not (regByte a)) s = .next t ∧ (t.reg a).toNat = 255 - (s.reg a).toNat ∧
      t.pc.toNat = s.pc.toNat + 3 ∧ OnlyRegs (· = a) s t) ∧
  (∀ (a : Fin 8) (s : State), s.pc.toNat + 6 ≤ 255 →
    ∃ t u, exec (.not (regByte a)) s = .next t ∧ exec (.not (regByte a)) t = .next u ∧ u.reg a = s.reg a)

/-- R110, R111; the whole byte as count and the zero fill are the spec's decision D13. -/
def Obligations.ShiftsByTheWholeByte : Prop :=
  Alu2Rule .shl .shl (fun x n => if n ≥ 8 then 0 else (x * 2 ^ n) % 256) ∧
  Alu2Rule .shr .shr (fun x n => if n ≥ 8 then 0 else x / 2 ^ n)

/-- R112, R113: also for register 7, without a stack check; the reduction modulo 256 is the spec's decision D2. -/
def Obligations.IncAndDecWrap : Prop :=
  StepByOneRule .inc .inc (fun x => (x + 1) % 256) ∧ StepByOneRule .dec .dec (fun x => (x + 255) % 256)

/-! ## Whole-machine rules -/

/-- R17: FL is written by CMP alone. -/
def Obligations.OnlyCmpWritesFlags : Prop :=
  ∀ (i : Instr) (s t : State), exec i s = .next t → i.mnemonic ≠ .cmp → t.fl = s.fl

/-- R17: FL is read by the six conditional jumps alone: every other instruction does the same whatever FL holds, and FL
afterwards is what it held, or, after a CMP that did not fault, what the CMP writes. -/
def Obligations.OnlyConditionalJumpsReadFlags : Prop :=
  ∀ (i : Instr) (s t : State) (v : BitVec 3), s.run = .running → exec i s = .next t →
    i.mnemonic ∉ [Mnemonic.jeq, .jne, .jgt, .jge, .jlt, .jle] →
    exec i (s.setFl v) = .next (if i.mnemonic = .cmp ∧ t.run = .running then t else t.setFl v)

/-- R11: the registers are written only by the instructions the rule lists, at the places it lists. -/
def Obligations.RegistersWrittenOnlyAsListed : Prop :=
  ∀ (i : Instr) (s t : State), exec i s = .next t → RegsKept (writesReg i) s t

/-- R13, R11 (D22): no register but the stack pointer is special. An instruction that does not name register r (r not 7)
neither reads nor changes it: with another value in it the result is the same but for that value. -/
def Obligations.UnnamedRegistersDoNotMatter : Prop :=
  ∀ (i : Instr) (r : Fin 8) (v : Byte) (s t : State), r ≠ spIndex → (∀ b ∈ i.registerOperands, b ≠ regByte r) →
    exec i s = .next t → exec i (s.setReg r v) = .next (t.setReg r v)

/-- R32: memory is written only by ST, PUSH and CALL, and there only the one cell they store to. -/
def Obligations.MemoryWrittenOnlyByStores : Prop :=
  ∀ (i : Instr) (s t : State), exec i s = .next t → CellsKept (fun c => storeAddress i s = some c) s t

/-- R22: OUT only grows, by at most one event, and only by PRN and PRA; no instruction touches TRACE (R23). -/
def Obligations.OutputGrowsOnlyByPrnAndPra : Prop :=
  ∀ (i : Instr) (s t : State), exec i s = .next t →
    (t.out = s.out ∨ ∃ e, emits i s = some e ∧ t.out = s.out ++ [e]) ∧ t.trace = s.trace

/-- R129 (D8): a fault is precise. Where an instruction performed by a running core ends Faulted, the record names its own
address and the rest of the state is the state before it. -/
def Obligations.FaultsCommitNothing : Prop :=
  ∀ (i : Instr) (s t : State) (cause : Cause) (pc : Byte) (info : Nat),
    s.run = .running → exec i s = .next t → t.run = .faulted cause pc info →
      pc = s.pc ∧ t = { s with run := .faulted cause s.pc info }

/-- R16, R55: where a step goes on, PC has moved by ADV(m), or it is a jump's, CALL's or RET's target; PC never wraps. -/
def Obligations.ProgramCounterMovesByTheTable : Prop :=
  ∀ (cfg : Config) (s t : State) (i : Instr), s.run = .running → decode cfg (windowAt s) = .ok i →
    cycle cfg s = .next t → t.run = .running →
      s.pc.toNat ≤ 253 ∧
      ((∃ n, i.mnemonic.adv = some n ∧ t.pc.toNat = s.pc.toNat + n) ∨
       (i.mnemonic ∈ [Mnemonic.jmp, .jeq, .jne, .jgt, .jge, .jlt, .jle] ∧
          ∃ r, i.registerOperands = [regByte r] ∧ t.pc = s.reg r) ∨
       (i.mnemonic = .call ∧ ∃ r, i.registerOperands = [regByte r] ∧ t.pc = t.reg r) ∨
       (i.mnemonic = .ret ∧ t.pc = s.memRead s.sp))

/-! ## Hazards -/

/-- R41, R51: a store is seen by the next fetch, wherever it goes, and never by the ST that makes it. -/
def Obligations.StoreIsSeenByTheNextFetch : Prop :=
  ∀ (cfg : Config) (s : State) (a b : Fin 8), s.run = .running → s.pc.toNat ≤ 251 →
    windowAt s = ⟨cfg.opcodeOf .st, regByte a, regByte b⟩ →
    ∃ t, cycle cfg s = .next t ∧ t.pc = s.pc + 2 ∧ fetch t = .ok
      ⟨if s.reg a = s.pc + 2 then s.reg b else s.memRead (s.pc + 2),
       if s.reg a = s.pc + 3 then s.reg b else s.memRead (s.pc + 3),
       if s.reg a = s.pc + 4 then s.reg b else s.memRead (s.pc + 4)⟩

/-- R146: after an ST that does not store over it, the core executes the ST's own byte b, an opcode 0 to 7: NOP, HLT or
illegal under the default OPCODE_MAP (log 1, PRESUMED). The spec derives this rule. -/
def Obligations.StFallsIntoItsOwnOperand : Prop :=
  ∀ (s : State) (a b : Fin 8), s.run = .running → s.pc.toNat ≤ 251 →
    windowAt s = ⟨0x84, regByte a, regByte b⟩ → s.reg a ≠ s.pc + 2 →
    ∃ t, step s = .next t ∧ t.pc.toNat = s.pc.toNat + 2 ∧
      (b = 0 → ∃ u, step t = .next u ∧ u.run = .running ∧ u.pc.toNat = s.pc.toNat + 4) ∧
      (b = 1 → step t = .next { t with run := .halted }) ∧
      (1 < b → step t = .next { t with run := .faulted .illegalInstruction t.pc b.val })

/-! ## Memory, reset, load, and the invariant -/

/-- The form memory is kept in is canonical: two memories in it that read alike at all 256 addresses are equal data, so two
states are equal exactly when the machine cannot tell them apart. -/
def Obligations.EqualMemoriesAreEqualData : Prop :=
  ∀ m n : Memory, m.wf = true → n.wf = true → (∀ a : Nat, a < memSize → m.read a = n.read a) → m = n

/-- R24, R140: what reset leaves; FL is the spec's decision D7, RUN D29, the streams D17 and D19. -/
def Obligations.ResetLeavesTheStatedValues : Prop :=
  (∀ r : Fin 8, r ≠ spIndex → State.reset.reg r = 0x00) ∧ State.reset.sp = 0xF4 ∧
  (∀ a : Byte, State.reset.memRead a = 0x00) ∧ State.reset.pc = 0x00 ∧ State.reset.fl = 0b000#3 ∧
  State.reset.run = .running ∧ State.reset.out = [] ∧ State.reset.trace = []

/-- R141 (D18), R127: loading n bytes, n at most 256, leaves them in cells 0 to n-1, every other cell 0 and the rest of the
reset state, sound under every configuration; a longer program, or none, is refused (log 7, DESIGN CHOICE: by a refusal). -/
def Obligations.LoadPlacesTheProgram : Prop :=
  (∀ bytes : List Byte, bytes.length ≤ 256 →
    ∃ t, boot (some bytes) = .next t ∧ (∀ c : Byte, t.memRead c = bytes.getD c.toNat 0) ∧
      t = { State.reset with mem := t.mem } ∧ ∀ cfg : Config, Inv cfg t) ∧
  (∀ bytes : List Byte, 256 < bytes.length → boot (some bytes) = .refused (.programTooLong bytes.length)) ∧
  boot none = .refused .programNotFound

/-- The invariant holds after reset, under every configuration. -/
def Obligations.ResetMeetsTheInvariant : Prop := ∀ cfg : Config, Inv cfg State.reset

/-- R18, R120, R129, R143: a step from any state that meets the invariant, reached or not, gives one that meets it: memory
canonical, FL one of its four values, a halted core at an HLT, a fault record true of the state it is found in. -/
def Obligations.StepKeepsTheInvariant : Prop :=
  ∀ s t : State, Inv Config.default s → step s = .next t → Inv Config.default t

/-- The same over any number of steps, for every OPCODE_MAP and TRACE_ENABLE, from any state that meets the invariant; and
on the way OUT and TRACE only grow. -/
def Obligations.RunsKeepTheInvariantAndTheStreams : Prop :=
  ∀ (cfg : Config) (k : Nat) (s t : State), Inv cfg s → Host.Core.run (coreFor cfg) k s = .next t →
    Inv cfg t ∧ (∃ more, t.out = s.out ++ more) ∧ (∃ more, t.trace = s.trace ++ more)
end

