-- ==== Sys2Proof/Laws/Decode.lean ====
section
/-! SUPPORT. The decoder is the inverse of OPCODE_MAP (R9, R56). -/

namespace Sys2Proof

theorem Mnemonic.mem_all (m : Mnemonic) : m ∈ Mnemonic.all := by cases m <;> decide

/-- The inverse gives back each mnemonic (R54: OPCODE_MAP is injective). -/
@[simp] theorem mnemonicOf_opcodeOf (cfg : Config) (m : Mnemonic) : mnemonicOf cfg.opcodeOf (cfg.opcodeOf m) = some m := by
  unfold mnemonicOf
  cases h : Mnemonic.all.find? (fun k => cfg.opcodeOf k == cfg.opcodeOf m) with
  | none => simpa using List.find?_eq_none.mp h m m.mem_all
  | some k => exact congrArg some (cfg.opcodeOf_injective k m (by simpa using List.find?_some h))

/-- It gives a mnemonic only for that mnemonic's opcode. -/
theorem opcodeOf_mnemonicOf {cfg : Config} {ir : Byte} {m : Mnemonic} (h : mnemonicOf cfg.opcodeOf ir = some m) :
    cfg.opcodeOf m = ir := by
  simpa using List.find?_some h

/-- It gives none exactly for the bytes that are no opcode. -/
theorem mnemonicOf_eq_none {cfg : Config} {ir : Byte} :
    mnemonicOf cfg.opcodeOf ir = none ↔ ∀ m, cfg.opcodeOf m ≠ ir := by
  constructor
  · intro h m hm
    rw [← hm, mnemonicOf_opcodeOf] at h
    cases h
  · intro h
    cases hm : mnemonicOf cfg.opcodeOf ir with
    | none => rfl
    | some m => exact absurd (opcodeOf_mnemonicOf hm) (h m)

@[simp] theorem mnemonic_withOperands (m : Mnemonic) (a b : Byte) : (m.withOperands a b).mnemonic = m := by
  cases m <;> rfl

/-- A window decodes to the instruction of the mnemonic its opcode is, with its operand bytes, or to nothing. -/
theorem decode_cases (cfg : Config) (w : Window) :
    (∃ m, cfg.opcodeOf m = w.ir ∧ decode cfg w = .ok (m.withOperands w.a w.b)) ∨
    ((∀ m, cfg.opcodeOf m ≠ w.ir) ∧ decode cfg w = .error (.illegalInstruction w.ir)) := by
  unfold decode
  cases h : mnemonicOf cfg.opcodeOf w.ir with
  | some m => exact .inl ⟨m, opcodeOf_mnemonicOf h, rfl⟩
  | none => exact .inr ⟨mnemonicOf_eq_none.mp h, rfl⟩

/-- A window that decodes has the opcode of what it decodes to. -/
theorem opcode_of_decode {cfg : Config} {w : Window} {i : Instr} (h : decode cfg w = .ok i) :
    cfg.opcodeOf i.mnemonic = w.ir := by
  rcases decode_cases cfg w with ⟨m, hm, hd⟩ | ⟨-, hd⟩
  · rw [hd] at h
    cases h
    simpa using hm
  · rw [hd] at h
    cases h

end Sys2Proof
end

