-- ==== Sys2Proof/Laws/State.lean ====
section
/-! SUPPORT. One lemma per field of State per update, true by rfl, so that no later proof unfolds a record update; and the
accessors (a register, the stack pointer, a memory cell, the flags) over the same updates. -/

namespace Sys2Proof.Machine

variable (s : State)

@[simp] theorem State.setReg_regs (i : Fin 8) (v : Byte) : (s.setReg i v).regs = s.regs.set i v := rfl
@[simp] theorem State.setReg_pc (i : Fin 8) (v : Byte) : (s.setReg i v).pc = s.pc := rfl
@[simp] theorem State.setReg_fl (i : Fin 8) (v : Byte) : (s.setReg i v).fl = s.fl := rfl
@[simp] theorem State.setReg_mem (i : Fin 8) (v : Byte) : (s.setReg i v).mem = s.mem := rfl
@[simp] theorem State.setReg_run (i : Fin 8) (v : Byte) : (s.setReg i v).run = s.run := rfl
@[simp] theorem State.setReg_out (i : Fin 8) (v : Byte) : (s.setReg i v).out = s.out := rfl
@[simp] theorem State.setReg_trace (i : Fin 8) (v : Byte) : (s.setReg i v).trace = s.trace := rfl

@[simp] theorem State.memWrite_regs (a v : Byte) : (s.memWrite a v).regs = s.regs := rfl
@[simp] theorem State.memWrite_pc (a v : Byte) : (s.memWrite a v).pc = s.pc := rfl
@[simp] theorem State.memWrite_fl (a v : Byte) : (s.memWrite a v).fl = s.fl := rfl
@[simp] theorem State.memWrite_mem (a v : Byte) : (s.memWrite a v).mem = s.mem.write a.toNat v := rfl
@[simp] theorem State.memWrite_run (a v : Byte) : (s.memWrite a v).run = s.run := rfl
@[simp] theorem State.memWrite_out (a v : Byte) : (s.memWrite a v).out = s.out := rfl
@[simp] theorem State.memWrite_trace (a v : Byte) : (s.memWrite a v).trace = s.trace := rfl

@[simp] theorem State.setPc_regs (a : Byte) : (s.setPc a).regs = s.regs := rfl
@[simp] theorem State.setPc_pc (a : Byte) : (s.setPc a).pc = a := rfl
@[simp] theorem State.setPc_fl (a : Byte) : (s.setPc a).fl = s.fl := rfl
@[simp] theorem State.setPc_mem (a : Byte) : (s.setPc a).mem = s.mem := rfl
@[simp] theorem State.setPc_run (a : Byte) : (s.setPc a).run = s.run := rfl
@[simp] theorem State.setPc_out (a : Byte) : (s.setPc a).out = s.out := rfl
@[simp] theorem State.setPc_trace (a : Byte) : (s.setPc a).trace = s.trace := rfl

@[simp] theorem State.setFl_regs (v : BitVec 3) : (s.setFl v).regs = s.regs := rfl
@[simp] theorem State.setFl_pc (v : BitVec 3) : (s.setFl v).pc = s.pc := rfl
@[simp] theorem State.setFl_fl (v : BitVec 3) : (s.setFl v).fl = v := rfl
@[simp] theorem State.setFl_mem (v : BitVec 3) : (s.setFl v).mem = s.mem := rfl
@[simp] theorem State.setFl_run (v : BitVec 3) : (s.setFl v).run = s.run := rfl
@[simp] theorem State.setFl_out (v : BitVec 3) : (s.setFl v).out = s.out := rfl
@[simp] theorem State.setFl_trace (v : BitVec 3) : (s.setFl v).trace = s.trace := rfl

@[simp] theorem State.halt_regs : (s.halt).regs = s.regs := rfl
@[simp] theorem State.halt_pc : (s.halt).pc = s.pc := rfl
@[simp] theorem State.halt_fl : (s.halt).fl = s.fl := rfl
@[simp] theorem State.halt_mem : (s.halt).mem = s.mem := rfl
@[simp] theorem State.halt_run : (s.halt).run = .halted := rfl
@[simp] theorem State.halt_out : (s.halt).out = s.out := rfl
@[simp] theorem State.halt_trace : (s.halt).trace = s.trace := rfl

@[simp] theorem State.output_regs (k : OutKind) (v : Byte) : (s.output k v).regs = s.regs := rfl
@[simp] theorem State.output_pc (k : OutKind) (v : Byte) : (s.output k v).pc = s.pc := rfl
@[simp] theorem State.output_fl (k : OutKind) (v : Byte) : (s.output k v).fl = s.fl := rfl
@[simp] theorem State.output_mem (k : OutKind) (v : Byte) : (s.output k v).mem = s.mem := rfl
@[simp] theorem State.output_run (k : OutKind) (v : Byte) : (s.output k v).run = s.run := rfl
@[simp] theorem State.output_out (k : OutKind) (v : Byte) : (s.output k v).out = s.out ++ [⟨k, v⟩] := rfl
@[simp] theorem State.output_trace (k : OutKind) (v : Byte) : (s.output k v).trace = s.trace := rfl

@[simp] theorem State.record_regs (e : TraceRecord) : (s.record e).regs = s.regs := rfl
@[simp] theorem State.record_pc (e : TraceRecord) : (s.record e).pc = s.pc := rfl
@[simp] theorem State.record_fl (e : TraceRecord) : (s.record e).fl = s.fl := rfl
@[simp] theorem State.record_mem (e : TraceRecord) : (s.record e).mem = s.mem := rfl
@[simp] theorem State.record_run (e : TraceRecord) : (s.record e).run = s.run := rfl
@[simp] theorem State.record_out (e : TraceRecord) : (s.record e).out = s.out := rfl
@[simp] theorem State.record_trace (e : TraceRecord) : (s.record e).trace = s.trace ++ [e] := rfl

@[simp] theorem State.raise_regs (why : Cause) (n : Nat) : (s.raise why n).regs = s.regs := rfl
@[simp] theorem State.raise_pc (why : Cause) (n : Nat) : (s.raise why n).pc = s.pc := rfl
@[simp] theorem State.raise_fl (why : Cause) (n : Nat) : (s.raise why n).fl = s.fl := rfl
@[simp] theorem State.raise_mem (why : Cause) (n : Nat) : (s.raise why n).mem = s.mem := rfl
@[simp] theorem State.raise_run (why : Cause) (n : Nat) : (s.raise why n).run = .faulted why s.pc n := rfl
@[simp] theorem State.raise_out (why : Cause) (n : Nat) : (s.raise why n).out = s.out := rfl
@[simp] theorem State.raise_trace (why : Cause) (n : Nat) : (s.raise why n).trace = s.trace := rfl

@[simp] theorem State.setReg_memRead (i : Fin 8) (v : Byte) (c : Byte) : (s.setReg i v).memRead c = s.memRead c := rfl
@[simp] theorem State.setReg_flE (i : Fin 8) (v : Byte) : (s.setReg i v).flE = s.flE := rfl
@[simp] theorem State.setReg_flG (i : Fin 8) (v : Byte) : (s.setReg i v).flG = s.flG := rfl
@[simp] theorem State.setReg_flL (i : Fin 8) (v : Byte) : (s.setReg i v).flL = s.flL := rfl
@[simp] theorem State.memWrite_reg (a v : Byte) (r : Fin 8) : (s.memWrite a v).reg r = s.reg r := rfl
@[simp] theorem State.memWrite_sp (a v : Byte) : (s.memWrite a v).sp = s.sp := rfl
@[simp] theorem State.memWrite_flE (a v : Byte) : (s.memWrite a v).flE = s.flE := rfl
@[simp] theorem State.memWrite_flG (a v : Byte) : (s.memWrite a v).flG = s.flG := rfl
@[simp] theorem State.memWrite_flL (a v : Byte) : (s.memWrite a v).flL = s.flL := rfl
@[simp] theorem State.setPc_reg (a : Byte) (r : Fin 8) : (s.setPc a).reg r = s.reg r := rfl
@[simp] theorem State.setPc_sp (a : Byte) : (s.setPc a).sp = s.sp := rfl
@[simp] theorem State.setPc_memRead (a : Byte) (c : Byte) : (s.setPc a).memRead c = s.memRead c := rfl
@[simp] theorem State.setPc_flE (a : Byte) : (s.setPc a).flE = s.flE := rfl
@[simp] theorem State.setPc_flG (a : Byte) : (s.setPc a).flG = s.flG := rfl
@[simp] theorem State.setPc_flL (a : Byte) : (s.setPc a).flL = s.flL := rfl
@[simp] theorem State.setFl_reg (v : BitVec 3) (r : Fin 8) : (s.setFl v).reg r = s.reg r := rfl
@[simp] theorem State.setFl_sp (v : BitVec 3) : (s.setFl v).sp = s.sp := rfl
@[simp] theorem State.setFl_memRead (v : BitVec 3) (c : Byte) : (s.setFl v).memRead c = s.memRead c := rfl
@[simp] theorem State.halt_reg (r : Fin 8) : (s.halt).reg r = s.reg r := rfl
@[simp] theorem State.halt_sp : (s.halt).sp = s.sp := rfl
@[simp] theorem State.halt_memRead (c : Byte) : (s.halt).memRead c = s.memRead c := rfl
@[simp] theorem State.halt_flE : (s.halt).flE = s.flE := rfl
@[simp] theorem State.halt_flG : (s.halt).flG = s.flG := rfl
@[simp] theorem State.halt_flL : (s.halt).flL = s.flL := rfl
@[simp] theorem State.output_reg (k : OutKind) (v : Byte) (r : Fin 8) : (s.output k v).reg r = s.reg r := rfl
@[simp] theorem State.output_sp (k : OutKind) (v : Byte) : (s.output k v).sp = s.sp := rfl
@[simp] theorem State.output_memRead (k : OutKind) (v : Byte) (c : Byte) : (s.output k v).memRead c = s.memRead c := rfl
@[simp] theorem State.output_flE (k : OutKind) (v : Byte) : (s.output k v).flE = s.flE := rfl
@[simp] theorem State.output_flG (k : OutKind) (v : Byte) : (s.output k v).flG = s.flG := rfl
@[simp] theorem State.output_flL (k : OutKind) (v : Byte) : (s.output k v).flL = s.flL := rfl
@[simp] theorem State.record_reg (e : TraceRecord) (r : Fin 8) : (s.record e).reg r = s.reg r := rfl
@[simp] theorem State.record_sp (e : TraceRecord) : (s.record e).sp = s.sp := rfl
@[simp] theorem State.record_memRead (e : TraceRecord) (c : Byte) : (s.record e).memRead c = s.memRead c := rfl
@[simp] theorem State.record_flE (e : TraceRecord) : (s.record e).flE = s.flE := rfl
@[simp] theorem State.record_flG (e : TraceRecord) : (s.record e).flG = s.flG := rfl
@[simp] theorem State.record_flL (e : TraceRecord) : (s.record e).flL = s.flL := rfl
@[simp] theorem State.raise_reg (why : Cause) (n : Nat) (r : Fin 8) : (s.raise why n).reg r = s.reg r := rfl
@[simp] theorem State.raise_sp (why : Cause) (n : Nat) : (s.raise why n).sp = s.sp := rfl
@[simp] theorem State.raise_memRead (why : Cause) (n : Nat) (c : Byte) : (s.raise why n).memRead c = s.memRead c := rfl
@[simp] theorem State.raise_flE (why : Cause) (n : Nat) : (s.raise why n).flE = s.flE := rfl
@[simp] theorem State.raise_flG (why : Cause) (n : Nat) : (s.raise why n).flG = s.flG := rfl
@[simp] theorem State.raise_flL (why : Cause) (n : Nat) : (s.raise why n).flL = s.flL := rfl

/-- A register after a register write (R7 `x[i] <- v`). -/
theorem State.reg_setReg (i r : Fin 8) (v : Byte) : (s.setReg i v).reg r = if i = r then v else s.reg r := by
  simp [State.reg, State.setReg, Vector.getElem_set, Fin.ext_iff]

@[simp] theorem State.reg_setReg_same (i : Fin 8) (v : Byte) : (s.setReg i v).reg i = v := by
  simp [State.reg_setReg]

theorem State.reg_setReg_ne {i r : Fin 8} (h : i ≠ r) (v : Byte) : (s.setReg i v).reg r = s.reg r := by
  simp [State.reg_setReg, h]

theorem State.sp_setReg (i : Fin 8) (v : Byte) : (s.setReg i v).sp = if i = spIndex then v else s.sp :=
  s.reg_setReg i spIndex v

@[simp] theorem State.sp_setReg_spIndex (v : Byte) : (s.setReg spIndex v).sp = v := s.reg_setReg_same spIndex v

/-- Two writes of one register: the later stands. -/
@[simp] theorem State.setReg_setReg_same (i : Fin 8) (v w : Byte) : (s.setReg i v).setReg i w = s.setReg i w := by
  simp [State.setReg]

/-- Writes of two registers commute. -/
theorem State.setReg_comm {i j : Fin 8} (h : i ≠ j) (v w : Byte) :
    (s.setReg i v).setReg j w = (s.setReg j w).setReg i v := by
  simp only [State.setReg, State.mk.injEq, and_self, and_true]
  exact Vector.set_comm v w (by simpa [Fin.ext_iff] using h)

/-- The registers decide the register file. -/
theorem State.regs_ext {s t : State} (h : ∀ r, t.reg r = s.reg r) : t.regs = s.regs := by
  apply Vector.ext
  intro i hi
  exact h ⟨i, hi⟩

end Sys2Proof.Machine
end

