-- ==== Sys2Proof/Laws/Memory.lean ====
section
/-! SUPPORT. Memory: what a read after a write gives, for every memory, and that every memory operation keeps the canonical
form. -/

namespace Sys2Proof.Machine

/-- An erased address reads as unlisted; every other address reads as before. -/
theorem Memory.read_erase (m : Memory) (a c : Nat) : (m.erase a).read c = if c = a then 0 else m.read c := by
  induction m with
  | nil => simp [Memory.erase, Memory.read]
  | cons e m ih =>
    obtain ⟨k, v⟩ := e
    by_cases hk : k = a
    · have : Memory.erase ((k, v) :: m) a = Memory.erase m a := by simp [Memory.erase, hk]
      rw [this, ih]
      by_cases hc : c = a
      · simp [hc]
      · have : ¬ k = c := by omega
        simp [hc, Memory.read, this]
    · have : Memory.erase ((k, v) :: m) a = (k, v) :: Memory.erase m a := by simp [Memory.erase, hk]
      rw [this]
      simp only [Memory.read, ih]
      by_cases hc : k = c
      · have : ¬ c = a := by omega
        simp [hc, this]
      · simp [hc]

/-- An inserted entry is what its address reads as, where that address was not listed. -/
theorem Memory.read_insert (m : Memory) (a : Nat) (v : Byte) (c : Nat) (h : ∀ e ∈ m, e.1 ≠ a) :
    (m.insert a v).read c = if c = a then v else m.read c := by
  induction m with
  | nil =>
    by_cases hc : c = a
    · simp [Memory.insert, Memory.read, hc]
    · have : ¬ a = c := by omega
      simp [Memory.insert, Memory.read, hc, this]
  | cons e m ih =>
    obtain ⟨k, w⟩ := e
    have hka : k ≠ a := h (k, w) (by simp)
    have ih := ih (fun e he => h e (by simp [he]))
    simp only [Memory.insert]
    split
    · simp only [Memory.read, ih]
      by_cases hc : k = c
      · have : ¬ c = a := by omega
        simp [hc, this]
      · simp [hc]
    · simp only [Memory.read]
      by_cases hc : c = a
      · simp [hc]
      · have : ¬ a = c := by omega
        simp [hc, this]

/-- No entry of a memory with an address erased has that address. -/
theorem Memory.not_mem_erase (m : Memory) (a : Nat) : ∀ e ∈ m.erase a, e.1 ≠ a := by
  intro e he
  simpa [Memory.erase] using (List.mem_filter.mp he).2

/-- R31, R38: a read after a write gives the value written at that address, and what was there everywhere else. -/
theorem Memory.read_write (m : Memory) (a : Nat) (v : Byte) (c : Nat) :
    (m.write a v).read c = if c = a then v else m.read c := by
  unfold Memory.write
  split
  · next h => rw [Memory.read_erase, h]
  · rw [Memory.read_insert _ _ _ _ (Memory.not_mem_erase m a), Memory.read_erase]
    by_cases hc : c = a <;> simp [hc]

/-- The canonical form of a nonempty memory. -/
theorem Memory.wf_cons (k : Nat) (v : Byte) (m : Memory) :
    Memory.wf ((k, v) :: m) = true ↔ k < memSize ∧ v ≠ 0 ∧ (∀ e ∈ m, k < e.1) ∧ Memory.wf m = true := by
  simp [Memory.wf, and_assoc]

theorem Memory.erase_wf (m : Memory) (a : Nat) (h : m.wf = true) : (m.erase a).wf = true := by
  induction m with
  | nil => simpa [Memory.erase] using h
  | cons e m ih =>
    obtain ⟨k, v⟩ := e
    obtain ⟨hk, hv, hlt, hm⟩ := (Memory.wf_cons k v m).mp h
    by_cases hka : k = a
    · have : Memory.erase ((k, v) :: m) a = Memory.erase m a := by simp [Memory.erase, hka]
      rw [this]
      exact ih hm
    · have : Memory.erase ((k, v) :: m) a = (k, v) :: Memory.erase m a := by simp [Memory.erase, hka]
      rw [this, Memory.wf_cons]
      exact ⟨hk, hv, fun e he => hlt e (List.mem_filter.mp he).1, ih hm⟩

theorem Memory.mem_insert {m : Memory} {a : Nat} {v : Byte} {e : Host.Cell} (h : e ∈ m.insert a v) :
    e = (a, v) ∨ e ∈ m := by
  induction m with
  | nil => simpa [Memory.insert] using h
  | cons f m ih =>
    obtain ⟨k, w⟩ := f
    simp only [Memory.insert] at h
    split at h
    · rcases List.mem_cons.mp h with h | h
      · exact .inr (by simp [h])
      · exact (ih h).imp id (fun h => by simp [h])
    · exact (List.mem_cons.mp h).imp id id

theorem Memory.insert_wf (m : Memory) (a : Nat) (v : Byte) (h : m.wf = true) (ha : a < memSize) (hv : v ≠ 0)
    (hna : ∀ e ∈ m, e.1 ≠ a) : (m.insert a v).wf = true := by
  induction m with
  | nil => exact (Memory.wf_cons a v []).mpr ⟨ha, hv, by simp, rfl⟩
  | cons e m ih =>
    obtain ⟨k, w⟩ := e
    obtain ⟨hk, hw, hlt, hm⟩ := (Memory.wf_cons k w m).mp h
    have hka : k ≠ a := hna (k, w) (by simp)
    simp only [Memory.insert]
    split
    · next hlt' =>
      refine (Memory.wf_cons _ _ _).mpr ⟨hk, hw, fun e he => ?_, ih hm (fun e he => hna e (by simp [he]))⟩
      rcases Memory.mem_insert he with rfl | he
      · exact hlt'
      · exact hlt e he
    · refine (Memory.wf_cons _ _ _).mpr ⟨ha, hv, fun e he => ?_, h⟩
      rcases List.mem_cons.mp he with rfl | he
      · show a < k
        omega
      · have := hlt e he
        omega

/-- Every write to an address of the machine keeps the canonical form. -/
theorem Memory.write_wf (m : Memory) (a : Nat) (v : Byte) (h : m.wf = true) (ha : a < memSize) :
    (m.write a v).wf = true := by
  unfold Memory.write
  split
  · exact Memory.erase_wf m a h
  · next hv => exact Memory.insert_wf _ a v (Memory.erase_wf m a h) ha hv (Memory.not_mem_erase m a)

/-- A cell after a memory write (R31). -/
theorem State.memRead_memWrite (s : State) (a v c : Byte) :
    (s.memWrite a v).memRead c = if c = a then v else s.memRead c := by
  simp only [State.memRead, State.memWrite_mem, Memory.read_write]
  by_cases h : c = a
  · simp [h]
  · have : ¬ c.toNat = a.toNat := fun e => h (BitVec.eq_of_toNat_eq e)
    simp [h, this]

@[simp] theorem State.memRead_memWrite_same (s : State) (a v : Byte) : (s.memWrite a v).memRead a = v := by
  simp [State.memRead_memWrite]

theorem State.memWrite_wf (s : State) (a v : Byte) (h : s.mem.wf = true) : (s.memWrite a v).mem.wf = true :=
  Memory.write_wf s.mem a.toNat v h a.isLt

/-- Loading keeps the canonical form where the bytes fit (R141). -/
theorem loadFrom_wf (bytes : List Byte) : ∀ (n : Nat) (m : Memory), n + bytes.length ≤ memSize → m.wf = true →
    (loadFrom n bytes m).wf = true := by
  induction bytes with
  | nil => intro n m _ h; exact h
  | cons b rest ih =>
    intro n m hn h
    simp only [List.length_cons] at hn
    exact ih (n + 1) _ (by omega) (Memory.write_wf m n b h (by omega))

theorem reset_mem_wf : State.reset.mem.wf = true := rfl

end Sys2Proof.Machine
end

