-- ==== Sys2Proof/Laws/Ops.lean ====
section
/-! SUPPORT. What each shared operation can do: `commit`, the operand check, the advance, the stack pointer's moves, the
stack operations, and the shapes of the meanings. -/

namespace Sys2Proof.Machine

/-! ## Except -/

@[simp] theorem ok_bind_eq {ε α β : Type} (x : α) (f : α → Except ε β) : (Except.ok x >>= f) = f x := rfl

@[simp] theorem error_bind_eq {ε α β : Type} (e : ε) (f : α → Except ε β) :
    ((Except.error e : Except ε α) >>= f) = .error e := rfl

@[simp] theorem pure_eq_ok {ε α : Type} (x : α) : (pure x : Except ε α) = .ok x := rfl

/-! ## commit -/

@[simp] theorem commit_ok (s t : State) : commit s (.ok t) = .next t := rfl

@[simp] theorem commit_error (s : State) (e : Trap) : commit s (.error e) = .next (s.raise e.cause e.info) := rfl

/-- A committed instruction ends in the state of its effects, or in the fault entered from the state before it. -/
theorem commit_cases {s t : State} {r : Except Trap State} (h : commit s r = .next t) :
    r = .ok t ∨ ∃ e, r = .error e ∧ t = s.raise e.cause e.info := by
  cases r with
  | ok u => exact .inl (by simpa using h)
  | error e => exact .inr ⟨e, rfl, by simpa using h.symm⟩

theorem commit_next (s : State) (r : Except Trap State) : ∃ t, commit s r = .next t := by
  cases r <;> exact ⟨_, rfl⟩

/-! ## Operands -/

@[simp] theorem regByte_toNat (r : Fin 8) : (regByte r).toNat = r.val := by
  simp only [regByte, BitVec.toNat_ofNat]
  omega

theorem regByte_inj {r q : Fin 8} : regByte r = regByte q ↔ r = q := by
  refine ⟨fun h => Fin.ext ?_, congrArg regByte⟩
  have := congrArg BitVec.toNat h
  simpa using this

/-- An operand byte names a register or is above 7 (R14). -/
theorem operand_cases (v : Byte) : (∃ r, v = regByte r) ∨ 7 < v.toNat := by
  by_cases h : v.toNat < 8
  · exact .inl ⟨⟨v.toNat, h⟩, BitVec.eq_of_toNat_eq (by simp)⟩
  · exact .inr (by omega)

@[simp] theorem regidx_regByte (r : Fin 8) : regidx (regByte r) = .ok r := by
  simp [regidx]

theorem regidx_bad {v : Byte} (h : 7 < v.toNat) : regidx v = .error ⟨.outOfRangeAddress, v.toNat⟩ := by
  have : ¬ v.toNat < 8 := by omega
  simp [regidx, this]

/-- The operand check passes exactly for the byte of the register it gives. -/
theorem regidx_ok {v : Byte} {r : Fin 8} (h : regidx v = .ok r) : v = regByte r := by
  rcases operand_cases v with ⟨q, rfl⟩ | hv
  · simp only [regidx_regByte, Except.ok.injEq] at h
    rw [h]
  · simp [regidx_bad hv] at h

@[simp] theorem withReg_regByte (r : Fin 8) (k : Fin 8 → Except Trap State) : withReg (regByte r) k = k r := by
  simp [withReg]

theorem withReg_bad {v : Byte} (h : 7 < v.toNat) (k : Fin 8 → Except Trap State) :
    withReg v k = .error ⟨.outOfRangeAddress, v.toNat⟩ := by
  simp [withReg, regidx_bad h]

@[simp] theorem withRegs_regByte (r q : Fin 8) (k : Fin 8 → Fin 8 → Except Trap State) :
    withRegs (regByte r) (regByte q) k = k r q := by
  simp [withRegs]

theorem withRegs_bad_a {v : Byte} (h : 7 < v.toNat) (w : Byte) (k : Fin 8 → Fin 8 → Except Trap State) :
    withRegs v w k = .error ⟨.outOfRangeAddress, v.toNat⟩ := by
  simp [withRegs, regidx_bad h]

theorem withRegs_bad_b (r : Fin 8) {w : Byte} (h : 7 < w.toNat) (k : Fin 8 → Fin 8 → Except Trap State) :
    withRegs (regByte r) w k = .error ⟨.outOfRangeAddress, w.toNat⟩ := by
  simp [withRegs, regidx_bad h]

/-! ## The advance (R16) -/

theorem sequential_ok {s : State} {n : Nat} (h : s.pc.toNat + n ≤ 255) :
    s.sequential n = .ok (BitVec.ofNat 8 (s.pc.toNat + n)) := by
  have : ¬ s.pc.toNat + n > 255 := by omega
  simp [State.sequential, this]

theorem sequential_error {s : State} {n : Nat} (h : 255 < s.pc.toNat + n) :
    s.sequential n = .error ⟨.outOfRangeAddress, s.pc.toNat + n⟩ := by
  simp [State.sequential, h]

/-- PC never wraps: an advance that does not fault adds n exactly. -/
theorem sequential_cases (s : State) (n : Nat) :
    (∃ a : Byte, s.sequential n = .ok a ∧ a.toNat = s.pc.toNat + n) ∨
    (255 < s.pc.toNat + n ∧ s.sequential n = .error ⟨.outOfRangeAddress, s.pc.toNat + n⟩) := by
  by_cases h : s.pc.toNat + n ≤ 255
  · exact .inl ⟨_, sequential_ok h, by simp only [BitVec.toNat_ofNat]; omega⟩
  · exact .inr ⟨by omega, sequential_error (by omega)⟩

/-- An instruction that ends with an advance completes with its other effects and PC moved, or faults. -/
theorem finish_cases (s : State) (n : Nat) (t : State) :
    (∃ a : Byte, finish s n t = .ok (t.setPc a) ∧ a.toNat = s.pc.toNat + n) ∨
    (255 < s.pc.toNat + n ∧ finish s n t = .error ⟨.outOfRangeAddress, s.pc.toNat + n⟩) := by
  rcases sequential_cases s n with ⟨a, h, ha⟩ | ⟨h, he⟩
  · exact .inl ⟨a, by simp [finish, h], ha⟩
  · exact .inr ⟨h, by simp [finish, he]⟩

theorem finish_ok {s : State} {n : Nat} (h : s.pc.toNat + n ≤ 255) (t : State) :
    ∃ a : Byte, finish s n t = .ok (t.setPc a) ∧ a.toNat = s.pc.toNat + n := by
  rcases finish_cases s n t with h' | ⟨h', -⟩
  · exact h'
  · omega

theorem finish_error {s : State} {n : Nat} (h : 255 < s.pc.toNat + n) (t : State) :
    finish s n t = .error ⟨.outOfRangeAddress, s.pc.toNat + n⟩ := by
  simp [finish, sequential_error h]

/-! ## The stack (R80, R81) -/

theorem decSp_overflow {s : State} (h : s.sp = 0x00) : s.decSp = .error ⟨.stackOverflow, 0x00⟩ := by
  simp [State.decSp, h]

theorem decSp_ok {s : State} (h : s.sp ≠ 0x00) : s.decSp = .ok (s.setReg spIndex (s.sp - 1)) := by
  simp only [State.decSp, if_neg h]

theorem incSp_underflow {s : State} (h : s.sp = 0xFF) : s.incSp = .error ⟨.stackUnderflow, 0xFF⟩ := by
  simp [State.incSp, h]

theorem incSp_ok {s : State} (h : s.sp ≠ 0xFF) : s.incSp = .ok (s.setReg spIndex (s.sp + 1)) := by
  simp only [State.incSp, if_neg h]

theorem push_overflow {s : State} (h : s.sp = 0x00) (v : State → Except Trap Byte) :
    s.push v = .error ⟨.stackOverflow, 0x00⟩ := by
  simp [State.push, decSp_overflow h]

/-- A push that does not overflow stores its value, evaluated after the decrement, at the decremented SP. -/
theorem push_ok {s : State} (h : s.sp ≠ 0x00) (v : State → Except Trap Byte) :
    s.push v = (v (s.setReg spIndex (s.sp - 1))).map ((s.setReg spIndex (s.sp - 1)).memWrite (s.sp - 1)) := by
  simp only [State.push, decSp_ok h, ok_bind_eq, State.sp_setReg_spIndex]
  cases v (s.setReg spIndex (s.sp - 1)) <;> rfl

theorem pop_underflow {s : State} (h : s.sp = 0xFF) : s.pop = .error ⟨.stackUnderflow, 0xFF⟩ := by
  simp [State.pop, incSp_underflow h]

theorem pop_ok {s : State} (h : s.sp ≠ 0xFF) : s.pop = .ok (s.memRead s.sp, s.setReg spIndex (s.sp + 1)) := by
  simp [State.pop, incSp_ok h]

/-! ## Shapes -/

@[simp] theorem alu2_regByte (op : Byte → Byte → Except Trap Byte) (a b : Fin 8) (s : State) :
    alu2 op (regByte a) (regByte b) s =
      (do let v ← op (s.reg a) (s.reg b); finish s 3 (s.setReg a v)) := by
  simp [alu2]

@[simp] theorem alu1_regByte (op : Byte → Byte) (n : Nat) (a : Fin 8) (s : State) :
    alu1 op n (regByte a) s = finish s n (s.setReg a (op (s.reg a))) := by
  simp [alu1]

theorem jumpIf_taken (a : Fin 8) (s : State) : jumpIf true (regByte a) s = .ok (s.setPc (s.reg a)) := by
  simp [jumpIf]

theorem jumpIf_untaken (a : Fin 8) (s : State) : jumpIf false (regByte a) s = finish s 2 s := by
  simp [jumpIf]

/-! ## Inversions: what must have held where an operation did not raise -/

theorem bind_eq_ok {ε α β : Type} {x : Except ε α} {f : α → Except ε β} {b : β} (h : (x >>= f) = .ok b) :
    ∃ a, x = .ok a ∧ f a = .ok b := by
  cases x with
  | ok a => exact ⟨a, rfl, h⟩
  | error e => cases h

theorem withReg_eq_ok {a : Byte} {k : Fin 8 → Except Trap State} {t : State} (h : withReg a k = .ok t) :
    ∃ r, a = regByte r ∧ k r = .ok t := by
  obtain ⟨r, hr, hk⟩ := bind_eq_ok h
  exact ⟨r, regidx_ok hr, hk⟩

theorem withRegs_eq_ok {a b : Byte} {k : Fin 8 → Fin 8 → Except Trap State} {t : State}
    (h : withRegs a b k = .ok t) : ∃ r q, a = regByte r ∧ b = regByte q ∧ k r q = .ok t := by
  obtain ⟨r, hr, h⟩ := bind_eq_ok h
  obtain ⟨q, hq, hk⟩ := bind_eq_ok h
  exact ⟨r, q, regidx_ok hr, regidx_ok hq, hk⟩

/-- `t` is `u` with PC moved `n` past where it stood in `s`, without wrapping (R16). -/
def Moves (s : State) (n : Nat) (u t : State) : Prop := ∃ a : Byte, a.toNat = s.pc.toNat + n ∧ t = u.setPc a

theorem finish_eq_ok {s u t : State} {n : Nat} (h : finish s n u = .ok t) : Moves s n u t := by
  rcases finish_cases s n u with ⟨a, h', ha⟩ | ⟨-, he⟩
  · rw [h'] at h
    exact ⟨a, ha, (Except.ok.inj h).symm⟩
  · rw [he] at h
    cases h

theorem sequential_eq_ok {s : State} {n : Nat} {a : Byte} (h : s.sequential n = .ok a) :
    a.toNat = s.pc.toNat + n := by
  rcases sequential_cases s n with ⟨b, h', hb⟩ | ⟨-, he⟩
  · rw [h'] at h
    cases h
    exact hb
  · rw [he] at h
    cases h

theorem incSp_eq_ok {s t : State} (h : s.incSp = .ok t) : s.sp ≠ 0xFF ∧ t = s.setReg spIndex (s.sp + 1) := by
  by_cases hs : s.sp = 0xFF
  · rw [incSp_underflow hs] at h
    cases h
  · rw [incSp_ok hs] at h
    exact ⟨hs, (Except.ok.inj h).symm⟩

theorem push_eq_ok {s t : State} {v : State → Except Trap Byte} (h : s.push v = .ok t) :
    s.sp ≠ 0x00 ∧ ∃ b, v (s.setReg spIndex (s.sp - 1)) = .ok b ∧
      t = (s.setReg spIndex (s.sp - 1)).memWrite (s.sp - 1) b := by
  by_cases hs : s.sp = 0x00
  · rw [push_overflow hs] at h
    cases h
  · rw [push_ok hs] at h
    cases hv : v (s.setReg spIndex (s.sp - 1)) with
    | ok b =>
      rw [hv] at h
      exact ⟨hs, b, rfl, (Except.ok.inj h).symm⟩
    | error e =>
      rw [hv] at h
      cases h

theorem pop_eq_ok {s t : State} {b : Byte} (h : s.pop = .ok (b, t)) :
    s.sp ≠ 0xFF ∧ b = s.memRead s.sp ∧ t = s.setReg spIndex (s.sp + 1) := by
  by_cases hs : s.sp = 0xFF
  · rw [pop_underflow hs] at h
    cases h
  · rw [pop_ok hs] at h
    cases h
    exact ⟨hs, rfl, rfl⟩

theorem jumpIf_eq_ok {c : Bool} {a : Byte} {s t : State} (h : jumpIf c a s = .ok t) :
    ∃ r, a = regByte r ∧ ((c = true ∧ t = s.setPc (s.reg r)) ∨ (c = false ∧ Moves s 2 s t)) := by
  obtain ⟨r, hr, h⟩ := withReg_eq_ok h
  refine ⟨r, hr, ?_⟩
  cases c with
  | true => exact .inl ⟨rfl, (Except.ok.inj h).symm⟩
  | false => exact .inr ⟨rfl, finish_eq_ok h⟩

theorem alu2_eq_ok {op : Byte → Byte → Except Trap Byte} {a b : Byte} {s t : State} (h : alu2 op a b s = .ok t) :
    ∃ r q v, a = regByte r ∧ b = regByte q ∧ op (s.reg r) (s.reg q) = .ok v ∧ Moves s 3 (s.setReg r v) t := by
  obtain ⟨r, q, hr, hq, h⟩ := withRegs_eq_ok h
  obtain ⟨v, hv, h⟩ := bind_eq_ok h
  exact ⟨r, q, v, hr, hq, hv, finish_eq_ok h⟩

theorem alu1_eq_ok {op : Byte → Byte} {n : Nat} {a : Byte} {s t : State} (h : alu1 op n a s = .ok t) :
    ∃ r, a = regByte r ∧ Moves s n (s.setReg r (op (s.reg r))) t := by
  obtain ⟨r, hr, h⟩ := withReg_eq_ok h
  exact ⟨r, hr, finish_eq_ok h⟩

end Sys2Proof.Machine
end

