-- ==== Sys2Proof/Laws/Cycle.lean ====
section
/-! SUPPORT. The cycle, path by path, and that the state `withFetchWord` makes fetches the word it was given. -/

namespace Sys2Proof.Machine

theorem fetch_ok {s : State} (h : s.pc.toNat ≤ 253) :
    fetch s = .ok ⟨s.memRead s.pc, s.memRead (s.pc + 1), s.memRead (s.pc + 2)⟩ := by
  have : ¬ s.pc.toNat + 2 > 255 := by omega
  simp [fetch, this]

theorem fetch_error {s : State} (h : 253 < s.pc.toNat) : fetch s = .error ⟨.outOfRangeAddress, 256⟩ := by
  have : s.pc.toNat + 2 > 255 := by omega
  simp [fetch, this]

theorem cycle_running {cfg : Config} {s : State} (h : s.run = .running) : cycle cfg s = runningCycle cfg s := by
  simp [cycle, h]

/-- Only a running core has a next state. -/
theorem running_of_cycle {cfg : Config} {s t : State} (h : cycle cfg s = .next t) : s.run = .running := by
  unfold cycle at h
  split at h
  · assumption
  · cases h
  · cases h

/-- The trace point changes the trace alone. -/
theorem traceStep_cases (cfg : Config) (s : State) (w : Window) :
    (cfg.traceEnable = true ∧ traceStep cfg s w = s.record (traceRecord s w)) ∨
    (cfg.traceEnable = false ∧ traceStep cfg s w = s) := by
  cases h : cfg.traceEnable <;> simp [traceStep, h]

/-- PC of the state `placeWindow` makes: a window fits there. -/
theorem placeWindow_pc_le (s : State) (w : Window) : (placeWindow s w).pc.toNat ≤ 253 := by
  unfold placeWindow
  dsimp only
  split
  · decide
  · omega

/-- R51: the fetch of the state `placeWindow` makes reads the window it was given. -/
theorem fetch_placeWindow (s : State) (w : Window) : fetch (placeWindow s w) = .ok w := by
  have hp := placeWindow_pc_le s w
  rw [fetch_ok hp]
  have key : ∀ (t : State) (p : Byte), p.toNat ≤ 253 →
      let u := ((t.memWrite p w.ir).memWrite (p + 1) w.a).memWrite (p + 2) w.b
      u.memRead p = w.ir ∧ u.memRead (p + 1) = w.a ∧ u.memRead (p + 2) = w.b := by
    intro t p hp'
    have h1 : p ≠ p + 1 := by bv_omega
    have h2 : p ≠ p + 2 := by bv_omega
    have h3 : p + 1 ≠ p + 2 := by bv_omega
    refine ⟨?_, ?_, ?_⟩
    · simp only [State.memRead_memWrite, if_neg h1, if_neg h2, if_true]
    · simp only [State.memRead_memWrite, if_neg h3, if_true]
    · simp
  obtain ⟨h1, h2, h3⟩ := key s (placeWindow s w).pc hp
  have e : ∀ c, (placeWindow s w).memRead c =
      (((s.memWrite (placeWindow s w).pc w.ir).memWrite ((placeWindow s w).pc + 1) w.a).memWrite
        ((placeWindow s w).pc + 2) w.b).memRead c := fun _ => rfl
  rw [e, e, e, h1, h2, h3]

/-- A word placed where the next fetch reads it is what the next step runs. -/
theorem step_withFetchWord (s : State) (nbits w : Nat) (i : Instr) (h : decodeTableWord nbits w = some i) :
    step (s.withFetchWord nbits w) = exec i (s.withFetchWord nbits w) := by
  have hr : (s.withFetchWord nbits w).run = .running := rfl
  have hf : fetch (s.withFetchWord nbits w) = .ok (Window.ofWord nbits w) := fetch_placeWindow s _
  have hd : decode Config.default (Window.ofWord nbits w) = .ok i := by
    unfold decodeTableWord at h
    cases hd : decode Config.default (Window.ofWord nbits w) with
    | ok j =>
      rw [hd] at h
      cases h
      rfl
    | error e =>
      rw [hd] at h
      cases h
  have ht : traceStep Config.default (s.withFetchWord nbits w) (Window.ofWord nbits w) = s.withFetchWord nbits w := rfl
  show cycle Config.default _ = _
  simp only [cycle, hr, runningCycle, hf, hd, ht]

end Sys2Proof.Machine
end

