-- ==== Sys2Proof/Laws/Exec.lean ====
section
/-! SUPPORT. What performing an instruction can do, said once: every instruction answers a next state, and that state is
the one its rule gives (`Effect`) or the fault entered from the state before it. -/

namespace Sys2Proof.Machine

/-- The state `t` an instruction leaves when it does not fault. -/
def Effect (i : Instr) (s t : State) : Prop :=
  match i with
  | .nop => Moves s 2 s t
  | .hlt => t = s.halt
  | .ret => s.sp ≠ 0xFF ∧ t = (s.setReg spIndex (s.sp + 1)).setPc (s.memRead s.sp)
  | .push a => ∃ r, a = regByte r ∧ s.sp ≠ 0x00 ∧
      Moves s 2 ((s.setReg spIndex (s.sp - 1)).memWrite (s.sp - 1) ((s.setReg spIndex (s.sp - 1)).reg r)) t
  | .pop a => ∃ r, a = regByte r ∧ (s.setReg r (s.memRead s.sp)).sp ≠ 0xFF ∧
      Moves s 2 ((s.setReg r (s.memRead s.sp)).setReg spIndex ((s.setReg r (s.memRead s.sp)).sp + 1)) t
  | .prn a => ∃ r, a = regByte r ∧ Moves s 2 (s.output .int (s.reg r)) t
  | .pra a => ∃ r, a = regByte r ∧ Moves s 2 (s.output .char (s.reg r)) t
  | .call a => ∃ r q, a = regByte r ∧ s.sp ≠ 0x00 ∧ q.toNat = s.pc.toNat + 2 ∧
      t = ((s.setReg spIndex (s.sp - 1)).memWrite (s.sp - 1) q).setPc ((s.setReg spIndex (s.sp - 1)).reg r)
  | .jmp a => ∃ r, a = regByte r ∧ t = s.setPc (s.reg r)
  | .jeq a => ∃ r, a = regByte r ∧ ((condEq s = true ∧ t = s.setPc (s.reg r)) ∨ (condEq s = false ∧ Moves s 2 s t))
  | .jne a => ∃ r, a = regByte r ∧ ((condNe s = true ∧ t = s.setPc (s.reg r)) ∨ (condNe s = false ∧ Moves s 2 s t))
  | .jgt a => ∃ r, a = regByte r ∧ ((condGt s = true ∧ t = s.setPc (s.reg r)) ∨ (condGt s = false ∧ Moves s 2 s t))
  | .jlt a => ∃ r, a = regByte r ∧ ((condLt s = true ∧ t = s.setPc (s.reg r)) ∨ (condLt s = false ∧ Moves s 2 s t))
  | .jle a => ∃ r, a = regByte r ∧ ((condLe s = true ∧ t = s.setPc (s.reg r)) ∨ (condLe s = false ∧ Moves s 2 s t))
  | .jge a => ∃ r, a = regByte r ∧ ((condGe s = true ∧ t = s.setPc (s.reg r)) ∨ (condGe s = false ∧ Moves s 2 s t))
  | .inc a => ∃ r, a = regByte r ∧ Moves s 2 (s.setReg r (s.reg r + 1)) t
  | .dec a => ∃ r, a = regByte r ∧ Moves s 2 (s.setReg r (s.reg r - 1)) t
  | .not a => ∃ r, a = regByte r ∧ Moves s 3 (s.setReg r (s.reg r ^^^ 0xFF)) t
  | .ldi a b => ∃ r, a = regByte r ∧ Moves s 3 (s.setReg r b) t
  | .ld a b => ∃ r q, a = regByte r ∧ b = regByte q ∧ Moves s 3 (s.setReg r (s.memRead (s.reg q))) t
  | .st a b => ∃ r q, a = regByte r ∧ b = regByte q ∧ Moves s 2 (s.memWrite (stAddress s r) (s.reg q)) t
  | .add a b => ∃ r q, a = regByte r ∧ b = regByte q ∧ Moves s 3 (s.setReg r (aluAdd (s.reg r) (s.reg q))) t
  | .sub a b => ∃ r q, a = regByte r ∧ b = regByte q ∧ Moves s 3 (s.setReg r (aluSub (s.reg r) (s.reg q))) t
  | .mul a b => ∃ r q, a = regByte r ∧ b = regByte q ∧ Moves s 3 (s.setReg r (aluMul (s.reg r) (s.reg q))) t
  | .div a b => ∃ r q, a = regByte r ∧ b = regByte q ∧ s.reg q ≠ 0 ∧ Moves s 3 (s.setReg r (s.reg r / s.reg q)) t
  | .mod a b => ∃ r q, a = regByte r ∧ b = regByte q ∧ s.reg q ≠ 0 ∧ Moves s 3 (s.setReg r (s.reg r % s.reg q)) t
  | .cmp a b => ∃ r q, a = regByte r ∧ b = regByte q ∧ Moves s 3 (s.setFl (compareFlags (s.reg r) (s.reg q))) t
  | .and a b => ∃ r q, a = regByte r ∧ b = regByte q ∧ Moves s 3 (s.setReg r (s.reg r &&& s.reg q)) t
  | .or a b => ∃ r q, a = regByte r ∧ b = regByte q ∧ Moves s 3 (s.setReg r (s.reg r ||| s.reg q)) t
  | .xor a b => ∃ r q, a = regByte r ∧ b = regByte q ∧ Moves s 3 (s.setReg r (s.reg r ^^^ s.reg q)) t
  | .shl a b => ∃ r q, a = regByte r ∧ b = regByte q ∧ Moves s 3 (s.setReg r (aluShl (s.reg r) (s.reg q))) t
  | .shr a b => ∃ r q, a = regByte r ∧ b = regByte q ∧ Moves s 3 (s.setReg r (aluShr (s.reg r) (s.reg q))) t

theorem aluDiv_eq_ok {x y v : Byte} (h : aluDiv x y = .ok v) : y ≠ 0 ∧ v = x / y := by
  unfold aluDiv at h
  split at h
  · cases h
  · next hy => exact ⟨hy, (Except.ok.inj h).symm⟩

theorem aluMod_eq_ok {x y v : Byte} (h : aluMod x y = .ok v) : y ≠ 0 ∧ v = x % y := by
  unfold aluMod at h
  split at h
  · cases h
  · next hy => exact ⟨hy, (Except.ok.inj h).symm⟩

/-- A committed register-result operation that cannot raise. -/
theorem alu2_pure_eq_ok {op : Byte → Byte → Byte} {a b : Byte} {s t : State}
    (h : alu2 (fun x y => .ok (op x y)) a b s = .ok t) :
    ∃ r q, a = regByte r ∧ b = regByte q ∧ Moves s 3 (s.setReg r (op (s.reg r) (s.reg q))) t := by
  obtain ⟨r, q, v, hr, hq, hv, h⟩ := alu2_eq_ok h
  cases hv
  exact ⟨r, q, hr, hq, h⟩

/-- No instruction faults the model or is refused: performing it always answers a next state. -/
theorem exec_next (i : Instr) (s : State) : ∃ t, exec i s = .next t := by
  cases i <;> first | exact commit_next _ _ | exact ⟨_, rfl⟩

/-- What performing an instruction can do (R129): its effect, or the fault entered from the state before it. -/
theorem exec_cases {i : Instr} {s t : State} (h : exec i s = .next t) :
    Effect i s t ∨ ∃ cause info, t = s.raise cause info := by
  have hraise : ∀ {r : Except Trap State}, commit s r = .next t → (r = .ok t → Effect i s t) →
      Effect i s t ∨ ∃ cause info, t = s.raise cause info := by
    intro r hc k
    rcases commit_cases hc with hr | ⟨e, -, he⟩
    · exact .inl (k hr)
    · exact .inr ⟨e.cause, e.info, he⟩
  cases i with
  | nop => exact hraise h finish_eq_ok
  | hlt => exact .inl (by cases h; rfl)
  | ret =>
    refine hraise h fun h => ?_
    obtain ⟨⟨b, u⟩, hp, h⟩ := bind_eq_ok h
    obtain ⟨hs, rfl, rfl⟩ := pop_eq_ok hp
    exact ⟨hs, (Except.ok.inj h).symm⟩
  | push a =>
    refine hraise h fun h => ?_
    obtain ⟨r, hr, h⟩ := withReg_eq_ok h
    obtain ⟨u, hp, h⟩ := bind_eq_ok h
    obtain ⟨hs, b, hb, rfl⟩ := push_eq_ok hp
    cases hb
    exact ⟨r, hr, hs, finish_eq_ok h⟩
  | pop a =>
    refine hraise h fun h => ?_
    obtain ⟨r, hr, h⟩ := withReg_eq_ok h
    obtain ⟨u, hp, h⟩ := bind_eq_ok h
    obtain ⟨hs, rfl⟩ := incSp_eq_ok hp
    exact ⟨r, hr, hs, finish_eq_ok h⟩
  | call a =>
    refine hraise h fun h => ?_
    obtain ⟨r, hr, h⟩ := withReg_eq_ok h
    obtain ⟨u, hp, h⟩ := bind_eq_ok h
    obtain ⟨hs, b, hb, rfl⟩ := push_eq_ok hp
    exact ⟨r, b, hr, hs, sequential_eq_ok hb, (Except.ok.inj h).symm⟩
  | jmp a =>
    refine hraise h fun h => ?_
    obtain ⟨r, hr, ⟨-, ht⟩ | ⟨hc, -⟩⟩ := jumpIf_eq_ok h
    · exact ⟨r, hr, ht⟩
    · cases hc
  | prn a =>
    refine hraise h fun h => ?_
    obtain ⟨r, hr, h⟩ := withReg_eq_ok h
    exact ⟨r, hr, finish_eq_ok h⟩
  | pra a =>
    refine hraise h fun h => ?_
    obtain ⟨r, hr, h⟩ := withReg_eq_ok h
    exact ⟨r, hr, finish_eq_ok h⟩
  | ldi a b =>
    refine hraise h fun h => ?_
    obtain ⟨r, hr, h⟩ := withReg_eq_ok h
    exact ⟨r, hr, finish_eq_ok h⟩
  | jeq a => exact hraise h jumpIf_eq_ok
  | jne a => exact hraise h jumpIf_eq_ok
  | jgt a => exact hraise h jumpIf_eq_ok
  | jlt a => exact hraise h jumpIf_eq_ok
  | jle a => exact hraise h jumpIf_eq_ok
  | jge a => exact hraise h jumpIf_eq_ok
  | inc a => exact hraise h alu1_eq_ok
  | dec a => exact hraise h alu1_eq_ok
  | not a => exact hraise h alu1_eq_ok
  | ld a b =>
    refine hraise h fun h => ?_
    obtain ⟨r, q, hr, hq, h⟩ := withRegs_eq_ok h
    exact ⟨r, q, hr, hq, finish_eq_ok h⟩
  | st a b =>
    refine hraise h fun h => ?_
    obtain ⟨r, q, hr, hq, h⟩ := withRegs_eq_ok h
    exact ⟨r, q, hr, hq, finish_eq_ok h⟩
  | cmp a b =>
    refine hraise h fun h => ?_
    obtain ⟨r, q, hr, hq, h⟩ := withRegs_eq_ok h
    exact ⟨r, q, hr, hq, finish_eq_ok h⟩
  | add a b => exact hraise h alu2_pure_eq_ok
  | sub a b => exact hraise h alu2_pure_eq_ok
  | mul a b => exact hraise h alu2_pure_eq_ok
  | and a b => exact hraise h alu2_pure_eq_ok
  | or a b => exact hraise h alu2_pure_eq_ok
  | xor a b => exact hraise h alu2_pure_eq_ok
  | shl a b => exact hraise h alu2_pure_eq_ok
  | shr a b => exact hraise h alu2_pure_eq_ok
  | div a b =>
    refine hraise h fun h => ?_
    obtain ⟨r, q, v, hr, hq, hv, h⟩ := alu2_eq_ok h
    obtain ⟨hne, rfl⟩ := aluDiv_eq_ok hv
    exact ⟨r, q, hr, hq, hne, h⟩
  | mod a b =>
    refine hraise h fun h => ?_
    obtain ⟨r, q, v, hr, hq, hv, h⟩ := alu2_eq_ok h
    obtain ⟨hne, rfl⟩ := aluMod_eq_ok hv
    exact ⟨r, q, hr, hq, hne, h⟩

end Sys2Proof.Machine
end

