-- ==== Sys2Proof/Laws/Flags.lean ====
section
/-! SUPPORT. The flag computation of CMP, case by case (R91). -/

namespace Sys2Proof.Machine

theorem compareFlags_eq {x y : Byte} (h : x.toNat = y.toNat) : compareFlags x y = 0b001#3 := by
  simp [compareFlags, BitVec.eq_of_toNat_eq h]

theorem compareFlags_gt {x y : Byte} (h : x.toNat > y.toNat) : compareFlags x y = 0b010#3 := by
  have : x ≠ y := fun e => by simp [e] at h
  simp only [compareFlags, if_neg this, if_pos h]

theorem compareFlags_lt {x y : Byte} (h : x.toNat < y.toNat) : compareFlags x y = 0b100#3 := by
  have hne : x ≠ y := fun e => by simp [e] at h
  have : ¬ x.toNat > y.toNat := by omega
  simp only [compareFlags, if_neg hne, if_neg this]

/-- CMP sets exactly one of the three bits (R18). -/
theorem compareFlags_cases (x y : Byte) :
    compareFlags x y = 0b001#3 ∨ compareFlags x y = 0b010#3 ∨ compareFlags x y = 0b100#3 := by
  rcases Nat.lt_trichotomy x.toNat y.toNat with h | h | h
  · exact .inr (.inr (compareFlags_lt h))
  · exact .inl (compareFlags_eq h)
  · exact .inr (.inl (compareFlags_gt h))

end Sys2Proof.Machine
end

