-- ==== Sys2Proof/Laws/PerInstr.lean ====
section
/-! SUPPORT. Statements per instruction. AssembledLength: what an assembler emits for an instruction (R59) is as long as
its advance (R55), for every instruction that has one but ST, whose advance of 2 stops at its own third byte (R146). -/

namespace Sys2Proof.Laws.AssembledLength

/-- The emitted bytes of an instruction reach exactly to the next instruction in sequence; ST's are one byte longer. -/
def Statement (i : Instr) : Prop :=
  ∀ (cfg : Config) (filler : Byte) (n : Nat), i.mnemonic.adv = some n →
    (assemble cfg filler i).length = if i.mnemonic = .st then n + 1 else n

theorem nop : Statement .nop := by
  intro cfg filler n h; cases h; rfl

theorem hlt : Statement .hlt := by
  intro cfg filler n h; cases h

theorem ret : Statement .ret := by
  intro cfg filler n h; cases h

theorem push (a : Byte) : Statement (.push a) := by
  intro cfg filler n h; cases h; rfl

theorem pop (a : Byte) : Statement (.pop a) := by
  intro cfg filler n h; cases h; rfl

theorem prn (a : Byte) : Statement (.prn a) := by
  intro cfg filler n h; cases h; rfl

theorem pra (a : Byte) : Statement (.pra a) := by
  intro cfg filler n h; cases h; rfl

theorem call (a : Byte) : Statement (.call a) := by
  intro cfg filler n h; cases h

theorem jmp (a : Byte) : Statement (.jmp a) := by
  intro cfg filler n h; cases h

theorem jeq (a : Byte) : Statement (.jeq a) := by
  intro cfg filler n h; cases h; rfl

theorem jne (a : Byte) : Statement (.jne a) := by
  intro cfg filler n h; cases h; rfl

theorem jgt (a : Byte) : Statement (.jgt a) := by
  intro cfg filler n h; cases h; rfl

theorem jlt (a : Byte) : Statement (.jlt a) := by
  intro cfg filler n h; cases h; rfl

theorem jle (a : Byte) : Statement (.jle a) := by
  intro cfg filler n h; cases h; rfl

theorem jge (a : Byte) : Statement (.jge a) := by
  intro cfg filler n h; cases h; rfl

theorem inc (a : Byte) : Statement (.inc a) := by
  intro cfg filler n h; cases h; rfl

theorem dec (a : Byte) : Statement (.dec a) := by
  intro cfg filler n h; cases h; rfl

theorem not (a : Byte) : Statement (.not a) := by
  intro cfg filler n h; cases h; rfl

theorem ldi (a b : Byte) : Statement (.ldi a b) := by
  intro cfg filler n h; cases h; rfl

theorem ld (a b : Byte) : Statement (.ld a b) := by
  intro cfg filler n h; cases h; rfl

theorem st (a b : Byte) : Statement (.st a b) := by
  intro cfg filler n h; cases h; rfl

theorem add (a b : Byte) : Statement (.add a b) := by
  intro cfg filler n h; cases h; rfl

theorem sub (a b : Byte) : Statement (.sub a b) := by
  intro cfg filler n h; cases h; rfl

theorem mul (a b : Byte) : Statement (.mul a b) := by
  intro cfg filler n h; cases h; rfl

theorem div (a b : Byte) : Statement (.div a b) := by
  intro cfg filler n h; cases h; rfl

theorem mod (a b : Byte) : Statement (.mod a b) := by
  intro cfg filler n h; cases h; rfl

theorem cmp (a b : Byte) : Statement (.cmp a b) := by
  intro cfg filler n h; cases h; rfl

theorem and (a b : Byte) : Statement (.and a b) := by
  intro cfg filler n h; cases h; rfl

theorem or (a b : Byte) : Statement (.or a b) := by
  intro cfg filler n h; cases h; rfl

theorem xor (a b : Byte) : Statement (.xor a b) := by
  intro cfg filler n h; cases h; rfl

theorem shl (a b : Byte) : Statement (.shl a b) := by
  intro cfg filler n h; cases h; rfl

theorem shr (a b : Byte) : Statement (.shr a b) := by
  intro cfg filler n h; cases h; rfl

end Sys2Proof.Laws.AssembledLength
end

