-- ==== Sys2Proof/Tests/Slice0.lean ====
section
/-! SUPPORT. The model's own tests: ill-formed terms refused, words written out from the encodings of spec/30_encoding.md,
single steps from the vectors of spec/95_test_vectors.md (each names its V<n>), and for every statement with hypotheses a
witness that meets them. -/

namespace Sys2Proof.Tests

open Sys2Proof Sys2Proof.Machine

/-- The reset state with PC and the bytes at it, as the vectors of spec/95_test_vectors.md start. -/
def start (pc : Byte) (bytes : List Byte) : State := { State.reset with pc := pc, mem := loadFrom pc.toNat bytes [] }

/-- The start state with registers 0 and 1 set: the shape of the two-operand vectors. -/
def start2 (op x y : Byte) : State := ((start 0 [op, 0x00, 0x01]).setReg 0 x).setReg 1 y

/-- The state one step leaves, if it leaves one. -/
def after (s : State) : Option State :=
  match step s with
  | .next t => some t
  | .fault _ => none
  | .refused _ => none

/-- The state some steps of a configuration leave, if they leave one. -/
def afterRun (cfg : Config) (k : Nat) (s : State) : Option State :=
  match (coreFor cfg).run k s with
  | .next t => some t
  | .fault _ => none
  | .refused _ => none

/-- The default configuration with tracing on. -/
def traced : Config := { Config.default with traceEnable := true }

/-- The source's demo program (P1) after the load. -/
def demo : State := start 0 [0x82, 0x00, 0x08, 0x47, 0x00, 0x01]

/-! ## Well-formedness (R14, R52) -/

theorem test_wf_accepts : (Instr.ldi 7 0xFF).wf = true ∧ (Instr.add 7 0).wf = true ∧ (Instr.not 7).wf = true ∧
    Instr.hlt.wf = true := by decide

theorem test_wf_refuses_first_operand : (Instr.ldi 8 1).wf = false ∧ (Instr.add 9 0).wf = false ∧
    (Instr.jmp 0xFF).wf = false := by decide

theorem test_wf_refuses_second_operand : (Instr.add 0 8).wf = false ∧ (Instr.st 7 0x80).wf = false := by decide

theorem test_first_bad_operand : (Instr.ld 9 8).firstBadOperand = some 9 ∧ (Instr.ld 7 8).firstBadOperand = some 8 ∧
    (Instr.ldi 7 8).firstBadOperand = none := by decide

/-! ## Decoding: words written out from the table of R54 and the formats of R52 -/

theorem test_decode_z : decode Config.default ⟨0b00000000, 0x12, 0x34⟩ = .ok .nop ∧
    decode Config.default ⟨0b00000001, 0x12, 0x34⟩ = .ok .hlt ∧
    decode Config.default ⟨0b00010001, 0x12, 0x34⟩ = .ok .ret := by decide

theorem test_decode_stack : decode Config.default ⟨0b01000101, 0x01, 0x34⟩ = .ok (.push 1) ∧
    decode Config.default ⟨0b01000110, 0x02, 0x34⟩ = .ok (.pop 2) ∧
    decode Config.default ⟨0b01010000, 0x03, 0x34⟩ = .ok (.call 3) := by decide

theorem test_decode_output : decode Config.default ⟨0b01000111, 0x04, 0x34⟩ = .ok (.prn 4) ∧
    decode Config.default ⟨0b01001000, 0x05, 0x34⟩ = .ok (.pra 5) := by decide

theorem test_decode_jumps : decode Config.default ⟨0b01010100, 0x01, 0x34⟩ = .ok (.jmp 1) ∧
    decode Config.default ⟨0b01010101, 0x02, 0x34⟩ = .ok (.jeq 2) ∧
    decode Config.default ⟨0b01010110, 0x03, 0x34⟩ = .ok (.jne 3) ∧
    decode Config.default ⟨0b01010111, 0x04, 0x34⟩ = .ok (.jgt 4) ∧
    decode Config.default ⟨0b01011000, 0x05, 0x34⟩ = .ok (.jlt 5) ∧
    decode Config.default ⟨0b01011001, 0x06, 0x34⟩ = .ok (.jle 6) ∧
    decode Config.default ⟨0b01011010, 0x07, 0x34⟩ = .ok (.jge 7) := by decide

theorem test_decode_alu1 : decode Config.default ⟨0b01100101, 0x01, 0x34⟩ = .ok (.inc 1) ∧
    decode Config.default ⟨0b01100110, 0x02, 0x34⟩ = .ok (.dec 2) ∧
    decode Config.default ⟨0b01101001, 0x03, 0x34⟩ = .ok (.not 3) := by decide

theorem test_decode_data : decode Config.default ⟨0b10000010, 0x01, 0xFE⟩ = .ok (.ldi 1 0xFE) ∧
    decode Config.default ⟨0b10000011, 0x02, 0x03⟩ = .ok (.ld 2 3) ∧
    decode Config.default ⟨0b10000100, 0x04, 0x05⟩ = .ok (.st 4 5) := by decide

theorem test_decode_arithmetic : decode Config.default ⟨0b10100000, 0x01, 0x02⟩ = .ok (.add 1 2) ∧
    decode Config.default ⟨0b10100001, 0x01, 0x02⟩ = .ok (.sub 1 2) ∧
    decode Config.default ⟨0b10100010, 0x01, 0x02⟩ = .ok (.mul 1 2) ∧
    decode Config.default ⟨0b10100011, 0x01, 0x02⟩ = .ok (.div 1 2) ∧
    decode Config.default ⟨0b10100100, 0x01, 0x02⟩ = .ok (.mod 1 2) ∧
    decode Config.default ⟨0b10100111, 0x01, 0x02⟩ = .ok (.cmp 1 2) := by decide

theorem test_decode_bitwise : decode Config.default ⟨0b10101000, 0x01, 0x02⟩ = .ok (.and 1 2) ∧
    decode Config.default ⟨0b10101010, 0x01, 0x02⟩ = .ok (.or 1 2) ∧
    decode Config.default ⟨0b10101011, 0x01, 0x02⟩ = .ok (.xor 1 2) ∧
    decode Config.default ⟨0b10101100, 0x01, 0x02⟩ = .ok (.shl 1 2) ∧
    decode Config.default ⟨0b10101101, 0x01, 0x02⟩ = .ok (.shr 1 2) := by decide

/-- INT and IRET of the teaching ISA, and an unused byte: illegal (R56, D28). -/
theorem test_decode_refuses : decode Config.default ⟨0x52, 0, 0⟩ = .error (.illegalInstruction 0x52) ∧
    decode Config.default ⟨0x13, 0, 0⟩ = .error (.illegalInstruction 0x13) ∧
    decode Config.default ⟨0xFF, 0, 0⟩ = .error (.illegalInstruction 0xFF) := by decide

/-- The first byte of a table word is its low byte: LDI R0,8 is 82 00 08. -/
theorem test_table_word : decodeTableWord 24 0x080082 = some (.ldi 0 8) ∧ decodeTableWord 16 0x0347 = some (.prn 3) ∧
    decodeTableWord 8 0x01 = some .hlt ∧ decodeTableWord 8 0x52 = none := by decide

/-- R59: what an assembler emits; NOP and NOT carry a filler byte, ST none. -/
theorem test_assemble : assemble Config.default 0x5A .nop = [0x00, 0x5A] ∧
    assemble Config.default 0x5A (.not 3) = [0x69, 0x03, 0x5A] ∧
    assemble Config.default 0x5A (.st 1 0) = [0x84, 0x01, 0x00] := by decide

/-- The host's probe: a table word placed at reset is what the next step runs (V1). -/
theorem test_with_fetch_word : (after (State.reset.withFetchWord 24 0x080082)).map (fun t => (t.pc, t.reg 0)) =
    some (0x03, 0x08) := by decide

/-! ## Single steps -/

/-- V2, V4. -/
theorem test_ldi : after (start 0x10 [0x82, 0x07, 0x40]) = some (((start 0x10 [0x82, 0x07, 0x40]).setReg 7 0x40).setPc 0x13) ∧
    after (start 0xFD [0x82, 0x00, 0x01]) = some ((start 0xFD [0x82, 0x00, 0x01]).raise .outOfRangeAddress 256) := by decide

/-- V6, V8: the address is the second operand; a load may read its own opcode. -/
theorem test_ld : after (((start 0x0A [0x83, 0x02, 0x01]).setReg 1 0x80).memWrite 0x80 0x55) = some (((((start 0x0A [0x83, 0x02, 0x01]).setReg 1 0x80).memWrite 0x80 0x55).setReg 2 0x55).setPc 0x0D) ∧
    after ((start 0x20 [0x83, 0x00, 0x01]).setReg 1 0x20) = some ((((start 0x20 [0x83, 0x00, 0x01]).setReg 1 0x20).setReg 0 0x83).setPc 0x23) := by decide

/-- V10, V14: the address is the first operand; the advance is 2. -/
theorem test_st : after (((start 0x06 [0x84, 0x01, 0x00]).setReg 0 0x55).setReg 1 0x80) = some (((((start 0x06 [0x84, 0x01, 0x00]).setReg 0 0x55).setReg 1 0x80).memWrite 0x80 0x55).setPc 0x08) ∧
    after (start 0x00 [0x84, 0x00, 0x08]) = some ((start 0x00 [0x84, 0x00, 0x08]).raise .outOfRangeAddress 8) := by decide

/-- V16. -/
theorem test_prn : after ((start 0x00 [0x47, 0x01]).setReg 1 0xFF) = some ((((start 0x00 [0x47, 0x01]).setReg 1 0xFF).output .int 0xFF).setPc 0x02) := by decide

/-- V18. -/
theorem test_pra : after ((start 0x0D [0x48, 0x02]).setReg 2 0x55) = some ((((start 0x0D [0x48, 0x02]).setReg 2 0x55).output .char 0x55).setPc 0x0F) := by decide

/-- V21, V22. -/
theorem test_hlt : after (start 0xFD [0x01, 0xEE, 0xEE]) = some ((start 0xFD [0x01, 0xEE, 0xEE]).halt) ∧
    after (start 0xFE [0x01, 0x00]) = some ((start 0xFE [0x01, 0x00]).raise .outOfRangeAddress 256) := by decide

/-- V24, V25. -/
theorem test_nop : after (start 0x08 [0x00, 0x5A]) = some ((start 0x08 [0x00, 0x5A]).setPc 0x0A) ∧
    after (start 0xFD [0x00, 0x00, 0x00]) = some ((start 0xFD [0x00, 0x00, 0x00]).setPc 0xFF) := by decide

/-- V27, V28: PUSH R7 stores the decremented SP. -/
theorem test_push : after (start 0x00 [0x45, 0x07]) = some ((((start 0x00 [0x45, 0x07]).setReg 7 0xF3).memWrite 0xF3 0xF3).setPc 0x02) ∧
    after (((start 0x10 [0x45, 0x00]).setReg 0 0x33).setReg 7 0x00) = some ((((start 0x10 [0x45, 0x00]).setReg 0 0x33).setReg 7 0x00).raise .stackOverflow 0) := by decide

/-- V29. -/
theorem test_push_to_zero : after (((start 0x10 [0x45, 0x00]).setReg 0 0x33).setReg 7 0x01) = some ((((((start 0x10 [0x45, 0x00]).setReg 0 0x33).setReg 7 0x01).setReg 7 0x00).memWrite 0x00 0x33).setPc 0x12) := by decide

/-- V30, V33. -/
theorem test_pop : after (((start 0x16 [0x46, 0x01]).setReg 7 0xF2).memWrite 0xF2 0x0E) = some ((((((start 0x16 [0x46, 0x01]).setReg 7 0xF2).memWrite 0xF2 0x0E).setReg 1 0x0E).setReg 7 0xF3).setPc 0x18) ∧
    after (((start 0x00 [0x46, 0x00]).setReg 7 0xFF).memWrite 0xFF 0x12) = some ((((start 0x00 [0x46, 0x00]).setReg 7 0xFF).memWrite 0xFF 0x12).raise .stackUnderflow 255) := by decide

/-- V31, V32: POP R7 ends one above the popped byte. -/
theorem test_pop_sp : after (((start 0x00 [0x46, 0x07]).setReg 7 0xF0).memWrite 0xF0 0x20) = some (((((start 0x00 [0x46, 0x07]).setReg 7 0xF0).memWrite 0xF0 0x20).setReg 7 0x21).setPc 0x02) ∧
    after (((start 0x00 [0x46, 0x07]).setReg 7 0xF0).memWrite 0xF0 0xFF) = some ((((start 0x00 [0x46, 0x07]).setReg 7 0xF0).memWrite 0xF0 0xFF).raise .stackUnderflow 255) := by decide

/-- V37, V38: CALL R7 jumps to the decremented SP. -/
theorem test_call : after (start 0x20 [0x50, 0x07]) = some ((((start 0x20 [0x50, 0x07]).setReg 7 0xF3).memWrite 0xF3 0x22).setPc 0xF3) ∧
    after (((start 0x20 [0x50, 0x00]).setReg 0 0x40).setReg 7 0x00) = some ((((start 0x20 [0x50, 0x00]).setReg 0 0x40).setReg 7 0x00).raise .stackOverflow 0) := by decide

/-- V39. -/
theorem test_call_at_253 : after ((start 0xFD [0x50, 0x00, 0x00]).setReg 0 0x40) = some (((((start 0xFD [0x50, 0x00, 0x00]).setReg 0 0x40).setReg 7 0xF3).memWrite 0xF3 0xFF).setPc 0x40) := by decide

/-- V40, V41. -/
theorem test_ret : after (((start 0x18 [0x11]).setReg 7 0xF3).memWrite 0xF3 0x08) = some (((((start 0x18 [0x11]).setReg 7 0xF3).memWrite 0xF3 0x08).setReg 7 0xF4).setPc 0x08) ∧
    after (((start 0x18 [0x11]).setReg 7 0xFF).memWrite 0xFF 0x08) = some ((((start 0x18 [0x11]).setReg 7 0xFF).memWrite 0xFF 0x08).raise .stackUnderflow 255) := by decide

/-- V43, V45. -/
theorem test_cmp : after (start2 0xA7 0x05 0x05) = some (((start2 0xA7 0x05 0x05).setFl 0b001#3).setPc 0x03) ∧
    after (start2 0xA7 0x03 0x07) = some (((start2 0xA7 0x03 0x07).setFl 0b100#3).setPc 0x03) := by decide

/-- V46, V48. -/
theorem test_cmp_unsigned : after ((start2 0xA7 0xFF 0x01).setFl 0b100#3) = some ((((start2 0xA7 0xFF 0x01).setFl 0b100#3).setFl 0b010#3).setPc 0x03) ∧
    after ((start 0xFD [0xA7, 0x00, 0x01]).setReg 0 0x01) = some (((start 0xFD [0xA7, 0x00, 0x01]).setReg 0 0x01).raise .outOfRangeAddress 256) := by decide

/-- V50, V51. -/
theorem test_jmp : after ((start 0x20 [0x54, 0x03]).setReg 3 0xFF) = some (((start 0x20 [0x54, 0x03]).setReg 3 0xFF).setPc 0xFF) ∧
    after (start 0x20 [0x54, 0x08]) = some ((start 0x20 [0x54, 0x08]).raise .outOfRangeAddress 8) := by decide

/-- V53, V52. -/
theorem test_jeq : after (((start 0x10 [0x55, 0x00]).setReg 0 0x40).setFl 0b001#3) = some ((((start 0x10 [0x55, 0x00]).setReg 0 0x40).setFl 0b001#3).setPc 0x40) ∧
    after (((start 0x10 [0x55, 0x00]).setReg 0 0x40).setFl 0b000#3) = some ((((start 0x10 [0x55, 0x00]).setReg 0 0x40).setFl 0b000#3).setPc 0x12) := by decide

/-- V76: the operand is checked though the jump is not taken. -/
theorem test_jeq_checks_its_operand : after ((start 0x10 [0x55, 0x09]).setFl 0b100#3) = some (((start 0x10 [0x55, 0x09]).setFl 0b100#3).raise .outOfRangeAddress 9) := by decide

/-- V56, V57: taken at FL = 000 (D15). -/
theorem test_jne : after (((start 0x10 [0x56, 0x00]).setReg 0 0x40).setFl 0b000#3) = some ((((start 0x10 [0x56, 0x00]).setReg 0 0x40).setFl 0b000#3).setPc 0x40) ∧
    after (((start 0x10 [0x56, 0x00]).setReg 0 0x40).setFl 0b001#3) = some ((((start 0x10 [0x56, 0x00]).setReg 0 0x40).setFl 0b001#3).setPc 0x12) := by decide

/-- V62, V61. -/
theorem test_jgt : after (((start 0x10 [0x57, 0x00]).setReg 0 0x40).setFl 0b010#3) = some ((((start 0x10 [0x57, 0x00]).setReg 0 0x40).setFl 0b010#3).setPc 0x40) ∧
    after (((start 0x10 [0x57, 0x00]).setReg 0 0x40).setFl 0b001#3) = some ((((start 0x10 [0x57, 0x00]).setReg 0 0x40).setFl 0b001#3).setPc 0x12) := by decide

/-- V65, V67. -/
theorem test_jge : after (((start 0x10 [0x5A, 0x00]).setReg 0 0x40).setFl 0b001#3) = some ((((start 0x10 [0x5A, 0x00]).setReg 0 0x40).setFl 0b001#3).setPc 0x40) ∧
    after (((start 0x10 [0x5A, 0x00]).setReg 0 0x40).setFl 0b100#3) = some ((((start 0x10 [0x5A, 0x00]).setReg 0 0x40).setFl 0b100#3).setPc 0x12) := by decide

/-- V71, V70. -/
theorem test_jlt : after (((start 0x10 [0x58, 0x00]).setReg 0 0x40).setFl 0b100#3) = some ((((start 0x10 [0x58, 0x00]).setReg 0 0x40).setFl 0b100#3).setPc 0x40) ∧
    after (((start 0x10 [0x58, 0x00]).setReg 0 0x40).setFl 0b010#3) = some ((((start 0x10 [0x58, 0x00]).setReg 0 0x40).setFl 0b010#3).setPc 0x12) := by decide

/-- V73, V74. -/
theorem test_jle : after (((start 0x10 [0x59, 0x00]).setReg 0 0x40).setFl 0b001#3) = some ((((start 0x10 [0x59, 0x00]).setReg 0 0x40).setFl 0b001#3).setPc 0x40) ∧
    after (((start 0x10 [0x59, 0x00]).setReg 0 0x40).setFl 0b010#3) = some ((((start 0x10 [0x59, 0x00]).setReg 0 0x40).setFl 0b010#3).setPc 0x12) := by decide

/-- V77, V78. -/
theorem test_add : after (start2 0xA0 0x0A 0x05) = some (((start2 0xA0 0x0A 0x05).setReg 0 0x0F).setPc 0x03) ∧
    after (start2 0xA0 0xFF 0x01) = some (((start2 0xA0 0xFF 0x01).setReg 0 0x00).setPc 0x03) := by decide

/-- V82, V81: SUB subtracts (D3). -/
theorem test_sub : after (start2 0xA1 0x03 0x05) = some (((start2 0xA1 0x03 0x05).setReg 0 0xFE).setPc 0x03) ∧
    after (start2 0xA1 0x05 0x03) = some (((start2 0xA1 0x05 0x03).setReg 0 0x02).setPc 0x03) := by decide

/-- V88, V87. -/
theorem test_mul : after (start2 0xA2 0xC8 0x02) = some (((start2 0xA2 0xC8 0x02).setReg 0 0x90).setPc 0x03) ∧
    after (start2 0xA2 0xFF 0xFF) = some (((start2 0xA2 0xFF 0xFF).setReg 0 0x01).setPc 0x03) := by decide

/-- V91, V90. -/
theorem test_div : after (start2 0xA3 0xFF 0x02) = some (((start2 0xA3 0xFF 0x02).setReg 0 0x7F).setPc 0x03) ∧
    after (start2 0xA3 0x09 0x02) = some (((start2 0xA3 0x09 0x02).setReg 0 0x04).setPc 0x03) := by decide

/-- V95, V138: the zero divisor comes before the advance. -/
theorem test_div_by_zero : after (start2 0xA3 0x09 0x00) = some ((start2 0xA3 0x09 0x00).raise .divideByZero 9) ∧
    after ((start 0xFD [0xA3, 0x00, 0x01]).setReg 0 0x09) = some (((start 0xFD [0xA3, 0x00, 0x01]).setReg 0 0x09).raise .divideByZero 9) := by decide

/-- V98, V97. -/
theorem test_mod : after (start2 0xA4 0xFF 0x10) = some (((start2 0xA4 0xFF 0x10).setReg 0 0x0F).setPc 0x03) ∧
    after (start2 0xA4 0x09 0x02) = some (((start2 0xA4 0x09 0x02).setReg 0 0x01).setPc 0x03) := by decide

/-- V101. -/
theorem test_mod_by_zero : after (start2 0xA4 0x09 0x00) = some ((start2 0xA4 0x09 0x00).raise .moduloByZero 9) := by decide

/-- V102. -/
theorem test_and : after (start2 0xA8 0xCC 0xAA) = some (((start2 0xA8 0xCC 0xAA).setReg 0 0x88).setPc 0x03) := by decide

/-- V104. -/
theorem test_or : after (start2 0xAA 0xCC 0xAA) = some (((start2 0xAA 0xCC 0xAA).setReg 0 0xEE).setPc 0x03) := by decide

/-- V106. -/
theorem test_xor : after (start2 0xAB 0xCC 0xAA) = some (((start2 0xAB 0xCC 0xAA).setReg 0 0x66).setPc 0x03) := by decide

/-- V108, V110. -/
theorem test_shl : after (start2 0xAC 0x81 0x01) = some (((start2 0xAC 0x81 0x01).setReg 0 0x02).setPc 0x03) ∧
    after (start2 0xAC 0x01 0x08) = some (((start2 0xAC 0x01 0x08).setReg 0 0x00).setPc 0x03) := by decide

/-- V114, V119: logical. -/
theorem test_shr : after (start2 0xAD 0x81 0x01) = some (((start2 0xAD 0x81 0x01).setReg 0 0x40).setPc 0x03) ∧
    after (start2 0xAD 0xFF 0xFF) = some (((start2 0xAD 0xFF 0xFF).setReg 0 0x00).setPc 0x03) := by decide

/-- V130, V131: the third byte is no operand. -/
theorem test_not : after (start 0x00 [0x69, 0x00, 0xEE]) = some (((start 0x00 [0x69, 0x00, 0xEE]).setReg 0 0xFF).setPc 0x03) ∧
    after ((start 0x00 [0x69, 0x00, 0x09]).setReg 0 0xFF) = some ((((start 0x00 [0x69, 0x00, 0x09]).setReg 0 0xFF).setReg 0 0x00).setPc 0x03) := by decide

/-- V132, V134. -/
theorem test_inc : after ((start 0x04 [0x65, 0x02]).setReg 2 0xFF) = some ((((start 0x04 [0x65, 0x02]).setReg 2 0xFF).setReg 2 0x00).setPc 0x06) ∧
    after (start 0x04 [0x65, 0x07]) = some (((start 0x04 [0x65, 0x07]).setReg 7 0xF5).setPc 0x06) := by decide

/-- V136, V137: no stack check. -/
theorem test_dec : after ((start 0x0F [0x66, 0x01]).setReg 1 0x00) = some ((((start 0x0F [0x66, 0x01]).setReg 1 0x00).setReg 1 0xFF).setPc 0x11) ∧
    after ((start 0x0F [0x66, 0x07]).setReg 7 0x00) = some ((((start 0x0F [0x66, 0x07]).setReg 7 0x00).setReg 7 0xFF).setPc 0x11) := by decide

/-- V139, V144, V145. -/
theorem test_fault_priority : after (start 0x00 [0xA3, 0x09, 0x00]) = some ((start 0x00 [0xA3, 0x09, 0x00]).raise .outOfRangeAddress 9) ∧
    after (start 0xFE [0xFF, 0x00]) = some ((start 0xFE [0xFF, 0x00]).raise .outOfRangeAddress 256) ∧
    after (start 0x00 [0x83, 0x09, 0x08]) = some ((start 0x00 [0x83, 0x09, 0x08]).raise .outOfRangeAddress 9) := by decide

/-- V141, V142. -/
theorem test_illegal : after (start 0x30 [0xFF, 0x00, 0x00]) = some ((start 0x30 [0xFF, 0x00, 0x00]).raise .illegalInstruction 0xFF) ∧
    after (start 0x30 [0x52, 0x00, 0x00]) = some ((start 0x30 [0x52, 0x00, 0x00]).raise .illegalInstruction 0x52) := by decide

/-- R24, R31: writing 0 takes the entry out again, so equal memories are equal data. -/
theorem test_memory_canonical : ((Memory.write [] 7 3).write 5 9) = [(5, 9), (7, 3)] ∧
    (((Memory.write [] 7 3).write 5 9).write 7 0) = [(5, 9)] ∧ Memory.wf [(5, 9), (7, 3)] = true ∧
    Memory.wf [(7, 3), (5, 9)] = false ∧ Memory.wf [(5, 0)] = false ∧ Memory.wf [(256, 1)] = false := by decide

/-- P1, the first two steps, traced: one output event and two records. -/
theorem test_demo_two_steps : (afterRun traced 2 demo).map (fun t => (t.pc, t.out, t.trace.map (fun r => (r.pc, r.m0)))) =
    some (0x05, [⟨.int, 8⟩], [(0x00, 0x82), (0x03, 0x47)]) := by decide

/-! ## Witnesses: for every statement with hypotheses, states and operands that meet them -/

theorem witness_DecodedWindowBeginsWithEncoding : decode Config.default ⟨0x84, 0x01, 0x02⟩ = .ok (.st 1 2) := by decide

theorem witness_IgnoredBytesHaveNoEffect : Mnemonic.hlt.format = .z ∧
    Mnemonic.not.format = .r ∧
    Mnemonic.st.format = .rr ∧
    Mnemonic.ldi.format = .ri ∧
    ((1, 2) : Byte × Byte) ≠ (1, 3) := by decide

/-- Operand `a`, operand `b`, and the only operand, at the boundary. -/
theorem witness_BadRegisterOperandFaults : (Instr.ld 8 8).firstBadOperand = some 8 ∧
    (Instr.ld 7 0xFF).firstBadOperand = some 0xFF ∧
    (Instr.push 8).firstBadOperand = some 8 := by decide

/-- PC at the first and the last address an instruction can stand at. -/
theorem witness_StepRunsTheDecodedInstruction : (start 0x00 [0x82, 0x00, 0x08]).run = .running ∧
    (start 0x00 [0x82, 0x00, 0x08]).pc.toNat ≤ 253 ∧
    decode Config.default (windowAt (start 0x00 [0x82, 0x00, 0x08])) = .ok (.ldi 0 8) ∧
    (start 0xFD [0xA0, 0x00, 0x01]).run = .running ∧
    (start 0xFD [0xA0, 0x00, 0x01]).pc.toNat ≤ 253 ∧
    decode traced (windowAt (start 0xFD [0xA0, 0x00, 0x01])) = .ok (.add 0 1) := by decide

theorem witness_FetchWindowFaults : (start 0xFE [0x01]).run = .running ∧
    253 < (start 0xFE [0x01]).pc.toNat ∧
    (start 0xFF [0x01]).run = .running ∧
    253 < (start 0xFF [0x01]).pc.toNat := by decide

theorem witness_IllegalOpcodeFaults : (start 0xFD [0x52]).run = .running ∧
    (start 0xFD [0x52]).pc.toNat ≤ 253 ∧
    (∀ m, Config.default.opcodeOf m ≠ (start 0xFD [0x52]).memRead 0xFD) := by
  refine ⟨by decide, by decide, fun m => ?_⟩
  cases m <;> decide

theorem witness_ExactlyRunningCoresStep : State.reset.run = .running ∧
    State.reset.halt.run = .halted ∧
    (State.reset.raise .stackOverflow 0).run = .faulted .stackOverflow 0x00 0 := by decide

/-- One state for each point of R130, and one without a fault. -/
theorem witness_FaultsFollowTheListAndItsPriority : (∀ s : State, s.run = .running → ∃ t, cycle Config.default s = .next t) ∧
    expectedTrap Config.default (start 0xFE [0xFF]) = some ⟨.outOfRangeAddress, 256⟩ ∧
    expectedTrap Config.default (start 0xFD [0xFF, 0x09, 0x09]) = some ⟨.illegalInstruction, 0xFF⟩ ∧
    expectedTrap Config.default (start 0xFD [0xA3, 0x09, 0x08]) = some ⟨.outOfRangeAddress, 9⟩ ∧
    expectedTrap Config.default (start 0xFD [0xA3, 0x07, 0x08]) = some ⟨.outOfRangeAddress, 8⟩ ∧
    expectedTrap Config.default (start 0xFD [0xA3, 0x07, 0x00]) = some ⟨.divideByZero, 0xF4⟩ ∧
    expectedTrap Config.default (start 0xFD [0xA3, 0x07, 0x07]) = some ⟨.outOfRangeAddress, 256⟩ ∧
    expectedTrap Config.default (start 0xFC [0xA3, 0x07, 0x07]) = none := by
  refine ⟨fun s h => ?_, by decide, by decide, by decide, by decide, by decide, by decide, by decide⟩
  rw [cycle_running h]
  unfold runningCycle
  split
  · exact ⟨_, rfl⟩
  · split
    · exact ⟨_, rfl⟩
    · exact exec_next _ _

/-- A step that halts, at the last address it can, and one that does not. -/
theorem witness_OnlyHltHalts : (∃ t, cycle Config.default (start 0xFD [0x01]) = .next t) ∧
    (∃ t, cycle Config.default (start 0xFE [0x01]) = .next t) ∧
    (∃ t, cycle Config.default (start 0x00 [0x00]) = .next t) := ⟨⟨_, rfl⟩, ⟨_, rfl⟩, ⟨_, rfl⟩⟩

/-- A traced step at 253 and one whose fetch fails. -/
theorem witness_TracingHasNoOtherEffect : traced.traceEnable = true ∧
    (∃ t, cycle traced (start 0xFD [0x01]) = .next t) ∧
    (∃ t, cycle traced (start 0xFE [0x01]) = .next t) := ⟨rfl, ⟨_, rfl⟩, ⟨_, rfl⟩⟩

theorem witness_LdiLoadsItsLiteral : 7 < (0x08 : Byte).toNat ∧
    255 < (start 0xFD []).pc.toNat + 3 ∧
    (start 0xFC []).pc.toNat + 3 ≤ 255 := by decide

theorem witness_NotComplementsAndSkipsAByte : 7 < (0x08 : Byte).toNat ∧
    255 < (start 0xFD []).pc.toNat + 3 ∧
    (start 0xFC []).pc.toNat + 3 ≤ 255 ∧
    (start 0xF9 []).pc.toNat + 6 ≤ 255 := by decide

theorem witness_LdLoadsTheAddressedByte : 7 < (0x08 : Byte).toNat ∧
    (7 : Byte).toNat ≤ 7 ∧
    255 < (start 0xFD []).pc.toNat + 3 ∧
    (start 0xFC []).pc.toNat + 3 ≤ 255 := by decide

theorem witness_CmpSetsExactlyOneFlag : 7 < (0x08 : Byte).toNat ∧
    (7 : Byte).toNat ≤ 7 ∧
    255 < (start 0xFD []).pc.toNat + 3 ∧
    (start 0xFC []).pc.toNat + 3 ≤ 255 ∧
    (start2 0xA7 5 5).reg 0 = (start2 0xA7 5 5).reg 1 ∧
    ((start2 0xA7 0xFF 1).reg 0).toNat > ((start2 0xA7 0xFF 1).reg 1).toNat ∧
    ((start2 0xA7 0 1).reg 0).toNat < ((start2 0xA7 0 1).reg 1).toNat := by decide

theorem witness_AddAndMulWrap : 7 < (0x08 : Byte).toNat ∧
    (7 : Byte).toNat ≤ 7 ∧
    255 < (start 0xFD []).pc.toNat + 3 ∧
    (start 0xFC []).pc.toNat + 3 ≤ 255 := by decide

theorem witness_SubSubtractsModulo256 : 7 < (0x08 : Byte).toNat ∧
    (7 : Byte).toNat ≤ 7 ∧
    255 < (start 0xFD []).pc.toNat + 3 ∧
    (start 0xFC []).pc.toNat + 3 ≤ 255 := by decide

theorem witness_AndOrXorResults : 7 < (0x08 : Byte).toNat ∧
    (7 : Byte).toNat ≤ 7 ∧
    255 < (start 0xFD []).pc.toNat + 3 ∧
    (start 0xFC []).pc.toNat + 3 ≤ 255 := by decide

theorem witness_ShiftsByTheWholeByte : 7 < (0x08 : Byte).toNat ∧
    (7 : Byte).toNat ≤ 7 ∧
    255 < (start 0xFD []).pc.toNat + 3 ∧
    (start 0xFC []).pc.toNat + 3 ≤ 255 := by decide

theorem witness_StStoresToTheAddressedCell : 7 < (0x08 : Byte).toNat ∧
    (7 : Byte).toNat ≤ 7 ∧
    (start 0xFD []).pc.toNat + 2 ≤ 255 := by decide

theorem witness_PrnAndPraEmitTheRegister : 7 < (0x08 : Byte).toNat ∧
    (start 0xFD []).pc.toNat + 2 ≤ 255 := by decide

theorem witness_IncAndDecWrap : 7 < (0x08 : Byte).toNat ∧
    (start 0xFD []).pc.toNat + 2 ≤ 255 := by decide

theorem witness_NopOnlyAdvancesByTwo : (start 0xFD []).pc.toNat + 2 ≤ 255 := by decide

/-- SP at 0, and at 1 with PC at the last address. -/
theorem witness_PushStoresBelowTheStackPointer : 7 < (0x08 : Byte).toNat ∧
    ((start 0xFD []).setReg 7 0x00).sp = 0x00 ∧
    ((start 0xFD []).setReg 7 0x01).sp ≠ 0x00 ∧
    ((start 0xFD []).setReg 7 0x01).pc.toNat + 2 ≤ 255 := by decide

/-- SP at 0xFF and at 0xFE; for POP R7 the popped byte at 0xFF and at 0xFE. -/
theorem witness_PopLoadsThenIncrements : 7 < (0x08 : Byte).toNat ∧
    (if (0 : Fin 8) = spIndex then ((start 0 []).setReg 7 0xFF).memRead ((start 0 []).setReg 7 0xFF).sp else ((start 0 []).setReg 7 0xFF).sp) = 0xFF ∧
    (if (7 : Fin 8) = spIndex then ((start 0 []).memWrite 0xF4 0xFF).memRead ((start 0 []).memWrite 0xF4 0xFF).sp else 0) = 0xFF ∧
    (0 : Fin 8) ≠ spIndex ∧
    ((start 0xFD []).setReg 7 0xFE).sp ≠ 0xFF ∧
    ((start 0xFD []).setReg 7 0xFE).pc.toNat + 2 ≤ 255 ∧
    ((start 0xFD []).memWrite 0xF4 0xFE).memRead ((start 0xFD []).memWrite 0xF4 0xFE).sp ≠ 0xFF ∧
    ((start 0xFD []).memWrite 0xF4 0xFE).pc.toNat + 2 ≤ 255 := by decide

theorem witness_CallPushesTheReturnAddress : 7 < (0x08 : Byte).toNat ∧
    ((start 0xFD []).setReg 7 0x00).sp = 0x00 ∧
    ((start 0xFD []).setReg 7 0x01).sp ≠ 0x00 ∧
    ((start 0xFD []).setReg 7 0x01).pc.toNat + 2 ≤ 255 := by decide

theorem witness_RetPopsTheProgramCounter : ((start 0 []).setReg 7 0xFF).sp = 0xFF ∧
    ((start 0 []).setReg 7 0xFE).sp ≠ 0xFF := by decide

/-- Two registers, and one register twice. -/
theorem witness_PushThenPopRestores : (6 : Fin 8) ≠ spIndex ∧
    (0 : Fin 8) ≠ spIndex ∧
    ((start 0xFB []).setReg 7 0x01).sp ≠ 0x00 ∧
    ((start 0xFB []).setReg 7 0x01).pc.toNat + 4 ≤ 255 := by decide

theorem witness_RetUndoesCall : ((start 0xFD []).setReg 7 0x01).sp ≠ 0x00 ∧
    ((start 0xFD []).setReg 7 0x01).pc.toNat + 2 ≤ 255 := by decide

theorem witness_JmpAlwaysJumps : 7 < (0x08 : Byte).toNat := by decide

/-- Each condition true and false, at the last address. -/
theorem witness_ConditionalJumpsReadTheirFlags : 7 < (0x08 : Byte).toNat ∧
    (start 0xFD []).pc.toNat + 2 ≤ 255 ∧
    (fun fl : BitVec 3 => fl.getLsbD 0) 0b001#3 = true ∧
    (fun fl : BitVec 3 => fl.getLsbD 0) 0b110#3 = false ∧
    (fun fl : BitVec 3 => fl.getLsbD 1) 0b010#3 = true ∧
    (fun fl : BitVec 3 => fl.getLsbD 1) 0b101#3 = false ∧
    (fun fl : BitVec 3 => fl.getLsbD 1 || fl.getLsbD 0) 0b001#3 = true ∧
    (fun fl : BitVec 3 => fl.getLsbD 1 || fl.getLsbD 0) 0b100#3 = false ∧
    (fun fl : BitVec 3 => fl.getLsbD 2) 0b100#3 = true ∧
    (fun fl : BitVec 3 => fl.getLsbD 2) 0b011#3 = false ∧
    (fun fl : BitVec 3 => fl.getLsbD 2 || fl.getLsbD 0) 0b001#3 = true ∧
    (fun fl : BitVec 3 => fl.getLsbD 2 || fl.getLsbD 0) 0b010#3 = false := by decide

theorem witness_JneJumpsWhenEqualIsClear : 7 < (0x08 : Byte).toNat ∧
    (start 0xFD []).pc.toNat + 2 ≤ 255 ∧
    (fun fl : BitVec 3 => !fl.getLsbD 0) 0b000#3 = true ∧
    (fun fl : BitVec 3 => !fl.getLsbD 0) 0b111#3 = false := by decide

/-- A state at the last address the pair fits, and operands for which each relation holds and fails. -/
theorem witness_CmpThenJumpTestsTheRelation : (start 0xFA []).pc.toNat + 5 ≤ 255 ∧
    ((start2 0xA7 5 5).reg 0).toNat = ((start2 0xA7 5 5).reg 1).toNat ∧
    ((start2 0xA7 5 6).reg 0).toNat < ((start2 0xA7 5 6).reg 1).toNat ∧
    ((start2 0xA7 6 5).reg 0).toNat > ((start2 0xA7 6 5).reg 1).toNat := by decide

/-- A zero divisor; a nonzero one at 253 and at 252. -/
theorem witness_DivAndModResults : 7 < (0x08 : Byte).toNat ∧
    (7 : Byte).toNat ≤ 7 ∧
    (start2 0xA3 9 0).reg 1 = 0 ∧
    (start 0xFD []).reg 7 ≠ 0 ∧
    255 < (start 0xFD []).pc.toNat + 3 ∧
    (start 0xFC []).reg 7 ≠ 0 ∧
    (start 0xFC []).pc.toNat + 3 ≤ 255 := by decide

theorem witness_QuotientAndRemainderRecompose : (start 0xFC []).reg 7 ≠ 0 ∧
    (start 0xFC []).pc.toNat + 3 ≤ 255 := by decide

theorem witness_OnlyCmpWritesFlags : (∃ t, exec (.add 0 1) (start 0x00 []) = .next t) ∧
    (Instr.add 0 1).mnemonic ≠ .cmp := ⟨⟨_, rfl⟩, by decide⟩

/-- A CMP that completes, one that faults, and another instruction. -/
theorem witness_OnlyConditionalJumpsReadFlags : (start 0xFC []).run = .running ∧
    (start 0xFD []).run = .running ∧
    (∃ t, exec (.cmp 0 1) (start 0xFC []) = .next t) ∧
    (∃ t, exec (.cmp 0 1) (start 0xFD []) = .next t) ∧
    (∃ t, exec (.push 0) (start 0x00 []) = .next t) ∧
    (Instr.cmp 0 1).mnemonic ∉ [Mnemonic.jeq, .jne, .jgt, .jge, .jlt, .jle] ∧
    (Instr.push 0).mnemonic ∉ [Mnemonic.jeq, .jne, .jgt, .jge, .jlt, .jle] := 
  ⟨rfl, rfl, ⟨_, rfl⟩, ⟨_, rfl⟩, ⟨_, rfl⟩, by decide, by decide⟩

theorem witness_RegistersWrittenOnlyAsListed : (∃ t, exec (.pop 3) (start 0x00 []) = .next t) ∧
    (∃ t, exec (.st 3 4) (start 0x00 []) = .next t) := ⟨⟨_, rfl⟩, ⟨_, rfl⟩⟩

/-- ADD R0,R1 and RET name no register 6. -/
theorem witness_UnnamedRegistersDoNotMatter : (6 : Fin 8) ≠ spIndex ∧
    (∀ b ∈ (Instr.add 0 1).registerOperands, b ≠ regByte 6) ∧
    (∀ b ∈ Instr.ret.registerOperands, b ≠ regByte 6) ∧
    (∃ t, exec (.add 0 1) (start 0x00 []) = .next t) ∧
    (∃ t, exec .ret (start 0x00 []) = .next t) := 
  ⟨by decide, by decide, by decide, ⟨_, rfl⟩, ⟨_, rfl⟩⟩

/-- One that stores and one that does not. -/
theorem witness_MemoryWrittenOnlyByStores : (∃ t, exec (.st 3 4) (start 0x00 []) = .next t) ∧
    (∃ t, exec (.ld 3 4) (start 0x00 []) = .next t) ∧
    storeAddress (.st 3 4) (start 0x00 []) = some 0x00 ∧
    storeAddress (.push 3) (start 0x00 []) = some 0xF3 ∧
    storeAddress (.ld 3 4) (start 0x00 []) = none := 
  ⟨⟨_, rfl⟩, ⟨_, rfl⟩, by decide, by decide, by decide⟩

theorem witness_OutputGrowsOnlyByPrnAndPra : (∃ t, exec (.prn 3) (start 0x00 []) = .next t) ∧
    emits (.prn 3) (start 0x00 []) = some ⟨.int, 0⟩ ∧
    (∃ t, exec .nop (start 0x00 []) = .next t) := ⟨⟨_, rfl⟩, by decide, ⟨_, rfl⟩⟩

/-- A division by zero performed by a running core. -/
theorem witness_FaultsCommitNothing : (start 0x30 []).run = .running ∧
    (∃ t, exec (.div 7 0) (start 0x30 []) = .next t ∧ t.run = .faulted .divideByZero 0x30 0xF4) := ⟨rfl, _, rfl, by decide⟩

/-- One state for each way PC moves. -/
theorem witness_ProgramCounterMovesByTheTable : decode Config.default (windowAt (start 0xFC [0xA0, 0x00, 0x01])) = .ok (.add 0 1) ∧ (after (start 0xFC [0xA0, 0x00, 0x01])).map (·.run) = some .running ∧
    decode Config.default (windowAt (start 0xFD [0x00])) = .ok (.nop) ∧ (after (start 0xFD [0x00])).map (·.run) = some .running ∧
    decode Config.default (windowAt (start 0xFD [0x54, 0x07])) = .ok (.jmp 7) ∧ (after (start 0xFD [0x54, 0x07])).map (·.run) = some .running ∧
    decode Config.default (windowAt ((start 0x10 [0x55, 0x00]).setFl 0b001#3)) = .ok (.jeq 0) ∧ (after ((start 0x10 [0x55, 0x00]).setFl 0b001#3)).map (·.run) = some .running ∧
    decode Config.default (windowAt (start 0xFD [0x50, 0x07])) = .ok (.call 7) ∧ (after (start 0xFD [0x50, 0x07])).map (·.run) = some .running ∧
    decode Config.default (windowAt (start 0xFD [0x11])) = .ok (.ret) ∧ (after (start 0xFD [0x11])).map (·.run) = some .running := by decide

/-- A store over the next opcode at the last address, and one elsewhere. -/
theorem witness_StoreIsSeenByTheNextFetch : (((start 0xFB [0x84, 0x01, 0x00]).setReg 1 0xFD).setReg 0 0x01).run = .running ∧
    (((start 0xFB [0x84, 0x01, 0x00]).setReg 1 0xFD).setReg 0 0x01).pc.toNat ≤ 251 ∧
    windowAt (((start 0xFB [0x84, 0x01, 0x00]).setReg 1 0xFD).setReg 0 0x01) = ⟨Config.default.opcodeOf .st, regByte 1, regByte 0⟩ ∧
    windowAt (start 0x06 [0x84, 0x01, 0x00]) = ⟨Config.default.opcodeOf .st, regByte 1, regByte 0⟩ := by decide

/-- b = 0, b = 1 and b = 7, at the last address. -/
theorem witness_StFallsIntoItsOwnOperand : windowAt (start 0xFB [0x84, 0x02, 0x00]) = ⟨0x84, regByte 2, regByte 0⟩ ∧
    windowAt (start 0xFB [0x84, 0x02, 0x01]) = ⟨0x84, regByte 2, regByte 1⟩ ∧
    windowAt (start 0xFB [0x84, 0x02, 0x07]) = ⟨0x84, regByte 2, regByte 7⟩ ∧
    (start 0xFB [0x84, 0x02, 0x07]).run = .running ∧
    (start 0xFB [0x84, 0x02, 0x07]).pc.toNat ≤ 251 ∧
    (start 0xFB [0x84, 0x02, 0x07]).reg 2 ≠ 0xFD ∧
    (1 : Fin 8) < 7 := by decide

theorem witness_EqualMemoriesAreEqualData : Memory.wf [(5, 9), (255, 1)] = true ∧
    (∀ a : Nat, a < memSize → Memory.read [(5, 9), (255, 1)] a = Memory.read (Memory.write [(5, 9)] 255 1) a) := ⟨by decide, fun _ _ => rfl⟩

/-- Lengths 0, 256 and 257. -/
theorem witness_LoadPlacesTheProgram : ([] : List Byte).length ≤ 256 ∧
    (List.replicate 256 (0x01 : Byte)).length ≤ 256 ∧
    256 < (List.replicate 257 (0x01 : Byte)).length := by
  refine ⟨by decide, ?_, ?_⟩
  · rw [List.length_replicate]
  · rw [List.length_replicate]
    decide

/-- A loaded program, and a state no run reaches: FL set, with a value in memory at the top, at the last address. -/
theorem witness_StepKeepsTheInvariant : Inv Config.default demo ∧ (∃ t, step demo = .next t) ∧
    Inv Config.default ((start 0xFD [0x01, 0xEE, 0xEE]).setFl 0b100#3) ∧
    (∃ t, step ((start 0xFD [0x01, 0xEE, 0xEE]).setFl 0b100#3) = .next t) := by
  refine ⟨⟨by decide, .inl rfl, trivial, fun _ => rfl⟩, ⟨_, rfl⟩, ⟨by decide, .inr (.inr (.inr rfl)), trivial, fun _ => rfl⟩, ⟨_, rfl⟩⟩

/-- The demo program's three steps, traced, and a run of no steps from a faulted state. -/
theorem witness_RunsKeepTheInvariantAndTheStreams : Inv traced demo ∧ (∃ t, Host.Core.run (coreFor traced) 3 demo = .next t) ∧
    Inv traced ((start 0xFE []).raise .outOfRangeAddress 256) ∧
    (∃ t, Host.Core.run (coreFor traced) 0 ((start 0xFE []).raise .outOfRangeAddress 256) = .next t) := by
  refine ⟨⟨by decide, .inl rfl, trivial, fun _ => rfl⟩, ⟨_, rfl⟩, ⟨by decide, .inl rfl, ⟨rfl, .inl ⟨rfl, by decide⟩⟩, fun _ => rfl⟩, ⟨_, rfl⟩⟩

end Sys2Proof.Tests
end

section
/-! What performing an instruction can do, in the terms of Safety.lean: the changes it may make (R11, R17, R22, R32) and
the faults it may raise (R120), proved once for every instruction; and the cycle around it (R51). -/

namespace Sys2Proof.Machine

/-! ## The changes an instruction may make -/

/-- `u` comes from `s` by changes the spec's tables allow to `i`; RUN and TRACE are not among them. -/
inductive Changes (i : Instr) (s : State) : State → Prop where
  /-- No change yet. -/
  | start : Changes i s s
  /-- A register of R11's list. -/
  | setReg {u : State} {r : Fin 8} (v : Byte) : Changes i s u → writesReg i r → Changes i s (u.setReg r v)
  /-- The cell of R32. -/
  | memWrite {u : State} {a : Byte} (v : Byte) : Changes i s u → storeAddress i s = some a → Changes i s (u.memWrite a v)
  /-- PC, by any instruction. -/
  | setPc {u : State} (p : Byte) : Changes i s u → Changes i s (u.setPc p)
  /-- The event of R22, once. -/
  | output {k : OutKind} {v : Byte} : emits i s = some ⟨k, v⟩ → Changes i s (s.output k v)
  /-- The flags of R91, once. -/
  | setFl (x y : Byte) : i.mnemonic = .cmp → Changes i s (s.setFl (compareFlags x y))

theorem Changes.run_eq {i : Instr} {s t : State} (h : Changes i s t) : t.run = s.run := by
  induction h with
  | start | output _ | setFl _ _ _ => rfl
  | setReg _ _ _ ih | memWrite _ _ _ ih | setPc _ _ ih => exact ih

theorem Changes.trace_eq {i : Instr} {s t : State} (h : Changes i s t) : t.trace = s.trace := by
  induction h with
  | start | output _ | setFl _ _ _ => rfl
  | setReg _ _ _ ih | memWrite _ _ _ ih | setPc _ _ ih => exact ih

theorem Changes.out_cases {i : Instr} {s t : State} (h : Changes i s t) :
    t.out = s.out ∨ ∃ e, emits i s = some e ∧ t.out = s.out ++ [e] := by
  induction h with
  | start | setFl _ _ _ => exact .inl rfl
  | output he => exact .inr ⟨_, he, rfl⟩
  | setReg _ _ _ ih | memWrite _ _ _ ih | setPc _ _ ih => exact ih

theorem Changes.fl_cases {i : Instr} {s t : State} (h : Changes i s t) :
    t.fl = s.fl ∨ (i.mnemonic = .cmp ∧ ∃ x y, t.fl = compareFlags x y) := by
  induction h with
  | start | output _ => exact .inl rfl
  | setFl x y hi => exact .inr ⟨hi, x, y, rfl⟩
  | setReg _ _ _ ih | memWrite _ _ _ ih | setPc _ _ ih => exact ih

theorem Changes.regsKept {i : Instr} {s t : State} (h : Changes i s t) : RegsKept (writesReg i) s t := by
  induction h with
  | start | output _ | setFl _ _ _ => exact fun _ _ => rfl
  | @setReg u r v _ hw ih =>
    intro q hq
    have hne : r ≠ q := fun e => hq (e ▸ hw)
    rw [State.reg_setReg_ne _ hne, ih q hq]
  | memWrite _ _ _ ih | setPc _ _ ih => exact ih

theorem Changes.mem_wf {i : Instr} {s t : State} (h : Changes i s t) (hs : s.mem.wf = true) : t.mem.wf = true := by
  induction h with
  | start | output _ | setFl _ _ _ => exact hs
  | memWrite v _ _ ih => exact State.memWrite_wf _ _ v ih
  | setReg _ _ _ ih | setPc _ _ ih => exact ih

/-! ## The faults an instruction may raise -/

/-- The faults of R120 that performing `i` in `s` can raise, each with what must hold for it. -/
inductive Traps (i : Instr) (s : State) : Trap → Prop where
  /-- A register operand out of its domain (R14). -/
  | operand {v : Byte} : v ∈ i.registerOperands → 7 < v.toNat → Traps i s ⟨.outOfRangeAddress, v.toNat⟩
  /-- An advance out of the address space (R16(e)). -/
  | advance {n : Nat} : n ≤ 3 → 255 < s.pc.toNat + n → Traps i s ⟨.outOfRangeAddress, s.pc.toNat + n⟩
  /-- R123. -/
  | divideByZero {a b : Fin 8} : i = .div (regByte a) (regByte b) → s.reg b = 0 →
      Traps i s ⟨.divideByZero, (s.reg a).toNat⟩
  /-- R124. -/
  | moduloByZero {a b : Fin 8} : i = .mod (regByte a) (regByte b) → s.reg b = 0 →
      Traps i s ⟨.moduloByZero, (s.reg a).toNat⟩
  /-- R125. -/
  | stackOverflow : i.mnemonic = .push ∨ i.mnemonic = .call → s.sp = 0x00 → Traps i s ⟨.stackOverflow, 0x00⟩
  /-- R126. -/
  | stackUnderflow : i.mnemonic = .pop ∨ (i.mnemonic = .ret ∧ s.sp = 0xFF) → Traps i s ⟨.stackUnderflow, 0xFF⟩

/-- What the effects of `i` in `s` come to is within both tables. -/
def Accounted (i : Instr) (s : State) : Except Trap State → Prop
  | .ok t => Changes i s t
  | .error e => Traps i s e

theorem accounted_finish {i : Instr} {s u : State} {n : Nat} (hn : n ≤ 3) (hu : Changes i s u) :
    Accounted i s (finish s n u) := by
  rcases finish_cases s n u with ⟨p, h, -⟩ | ⟨hlt, h⟩ <;> rw [h]
  · exact .setPc p hu
  · exact .advance hn hlt

theorem accounted_withReg {i : Instr} {s : State} {a : Byte} {k : Fin 8 → Except Trap State}
    (ha : a ∈ i.registerOperands) (hk : ∀ r, a = regByte r → Accounted i s (k r)) : Accounted i s (withReg a k) := by
  rcases operand_cases a with ⟨r, rfl⟩ | hbad
  · simpa using hk r rfl
  · rw [withReg_bad hbad]
    exact .operand ha hbad

theorem accounted_withRegs {i : Instr} {s : State} {a b : Byte} {k : Fin 8 → Fin 8 → Except Trap State}
    (hab : i.registerOperands = [a, b]) (hk : ∀ r q, a = regByte r → b = regByte q → Accounted i s (k r q)) :
    Accounted i s (withRegs a b k) := by
  rcases operand_cases a with ⟨r, rfl⟩ | hbad
  · rcases operand_cases b with ⟨q, rfl⟩ | hbad
    · simpa using hk r q rfl rfl
    · rw [withRegs_bad_b r hbad]
      exact .operand (by simp [hab]) hbad
  · rw [withRegs_bad_a hbad]
    exact .operand (by simp [hab]) hbad

/-- A two-operand ALU instruction: its result goes to its first operand, and what its operation raises must be allowed. -/
theorem accounted_alu2 {i : Instr} {s : State} {a b : Byte} {op : Byte → Byte → Except Trap Byte}
    (hab : i.registerOperands = [a, b]) (hw : ∀ r, a = regByte r → writesReg i r)
    (hop : ∀ r q e, a = regByte r → b = regByte q → op (s.reg r) (s.reg q) = .error e → Traps i s e) :
    Accounted i s (alu2 op a b s) := by
  refine accounted_withRegs hab fun r q hr hq => ?_
  cases hv : op (s.reg r) (s.reg q) with
  | ok v => exact accounted_finish (by omega) (.setReg v .start (hw r hr))
  | error e => exact hop r q e hr hq hv

theorem accounted_alu1 {i : Instr} {s : State} {a : Byte} {n : Nat} {op : Byte → Byte} (ha : a ∈ i.registerOperands)
    (hn : n ≤ 3) (hw : ∀ r, a = regByte r → writesReg i r) : Accounted i s (alu1 op n a s) :=
  accounted_withReg ha fun r hr => accounted_finish hn (.setReg _ .start (hw r hr))

theorem accounted_jumpIf {i : Instr} {s : State} {a : Byte} {c : Bool} (ha : a ∈ i.registerOperands) :
    Accounted i s (jumpIf c a s) := by
  refine accounted_withReg ha fun r _ => ?_
  cases c with
  | true => exact .setPc _ .start
  | false => exact accounted_finish (by omega) .start

/-- A push to the cell of R32, and what follows it. -/
theorem accounted_push {i : Instr} {s : State} {v : State → Except Trap Byte} {k : State → Except Trap State}
    (hi : i.mnemonic = .push ∨ i.mnemonic = .call) (hw : writesReg i spIndex)
    (hst : storeAddress i s = some (pushAddress s))
    (hv : ∀ e, v (s.setReg spIndex (s.sp - 1)) = .error e → Traps i s e)
    (hk : ∀ t, Changes i s t → Accounted i s (k t)) : Accounted i s (s.push v >>= k) := by
  by_cases hs : s.sp = 0x00
  · rw [push_overflow hs]
    exact .stackOverflow hi hs
  · rw [push_ok hs]
    cases hb : v (s.setReg spIndex (s.sp - 1)) with
    | ok b => exact hk _ (.memWrite b (.setReg _ .start hw) hst)
    | error e => exact hv e hb

theorem sequential_eq_error {s : State} {n : Nat} {e : Trap} (h : s.sequential n = .error e) :
    255 < s.pc.toNat + n ∧ e = ⟨.outOfRangeAddress, s.pc.toNat + n⟩ := by
  rcases sequential_cases s n with ⟨p, hp, -⟩ | ⟨hlt, hp⟩
  · rw [hp] at h
    cases h
  · rw [hp] at h
    exact ⟨hlt, (Except.error.inj h).symm⟩

theorem aluDiv_eq_error {x y : Byte} {e : Trap} (h : aluDiv x y = .error e) : y = 0 ∧ e = ⟨.divideByZero, x.toNat⟩ := by
  unfold aluDiv at h
  split at h
  · next hy => exact ⟨hy, (Except.error.inj h).symm⟩
  · cases h

theorem aluMod_eq_error {x y : Byte} {e : Trap} (h : aluMod x y = .error e) : y = 0 ∧ e = ⟨.moduloByZero, x.toNat⟩ := by
  unfold aluMod at h
  split at h
  · next hy => exact ⟨hy, (Except.error.inj h).symm⟩
  · cases h

/-- Every instruction but HLT is a commit of effects within the two tables. -/
theorem exec_accounted (i : Instr) (s : State) (hi : i ≠ .hlt) : ∃ r, exec i s = commit s r ∧ Accounted i s r := by
  cases i with
  | hlt => exact absurd rfl hi
  | nop => exact ⟨_, rfl, accounted_finish (by omega) .start⟩
  | ret =>
    refine ⟨_, rfl, ?_⟩
    by_cases hs : s.sp = 0xFF
    · rw [pop_underflow hs]
      exact .stackUnderflow (.inr ⟨rfl, hs⟩)
    · rw [pop_ok hs]
      exact .setPc _ (.setReg _ .start rfl)
  | push a =>
    exact ⟨_, rfl, accounted_withReg (.head _) fun r _ => accounted_push (.inl rfl) rfl rfl (fun _ h => nomatch h)
      fun t ht => accounted_finish (by omega) ht⟩
  | call a =>
    refine ⟨_, rfl, accounted_withReg (.head _) fun r _ => accounted_push (.inr rfl) rfl rfl (fun e he => ?_)
      fun t ht => .setPc _ ht⟩
    obtain ⟨hlt, rfl⟩ := sequential_eq_error he
    exact .advance (by omega) hlt
  | pop a =>
    refine ⟨_, rfl, accounted_withReg (.head _) fun r hr => ?_⟩
    by_cases hs : (s.setReg r (s.memRead s.sp)).sp = 0xFF
    · rw [incSp_underflow hs]
      exact .stackUnderflow (.inl rfl)
    · rw [incSp_ok hs]
      exact accounted_finish (by omega) (.setReg _ (.setReg _ .start (.inl hr)) (.inr rfl))
  | prn a | pra a =>
    refine ⟨_, rfl, accounted_withReg (.head _) fun r hr => accounted_finish (by omega) (.output ?_)⟩
    simp [emits, hr, Except.toOption]
  | jmp a | jeq a | jne a | jgt a | jlt a | jle a | jge a => exact ⟨_, rfl, accounted_jumpIf (.head _)⟩
  | inc a | dec a | not a => exact ⟨_, rfl, accounted_alu1 (.head _) (by omega) fun _ h => h⟩
  | ldi a b =>
    exact ⟨_, rfl, accounted_withReg (.head _) fun r hr => accounted_finish (by omega) (.setReg b .start hr)⟩
  | ld a b =>
    exact ⟨_, rfl, accounted_withRegs rfl fun r q hr _ => accounted_finish (by omega) (.setReg _ .start hr)⟩
  | st a b =>
    refine ⟨_, rfl, accounted_withRegs rfl fun r q hr _ => accounted_finish (by omega) (.memWrite _ .start ?_)⟩
    simp [storeAddress, hr, Except.toOption]
  | cmp a b => exact ⟨_, rfl, accounted_withRegs rfl fun r q _ _ => accounted_finish (by omega) (.setFl _ _ rfl)⟩
  | add a b | sub a b | mul a b | and a b | or a b | xor a b | shl a b | shr a b =>
    exact ⟨_, rfl, accounted_alu2 rfl (fun _ h => h) fun _ _ _ _ _ h => nomatch h⟩
  | div a b =>
    refine ⟨_, rfl, accounted_alu2 rfl (fun _ h => h) fun r q e hr hq h => ?_⟩
    obtain ⟨h0, rfl⟩ := aluDiv_eq_error h
    exact .divideByZero (by rw [hr, hq]) h0
  | mod a b =>
    refine ⟨_, rfl, accounted_alu2 rfl (fun _ h => h) fun r q e hr hq h => ?_⟩
    obtain ⟨h0, rfl⟩ := aluMod_eq_error h
    exact .moduloByZero (by rw [hr, hq]) h0

/-- The three ends of performing an instruction: allowed changes, the halt of HLT, or an allowed fault, entered from the
state before it (R129). -/
theorem exec_outcome {i : Instr} {s t : State} (h : exec i s = .next t) :
    Changes i s t ∨ (i = .hlt ∧ t = s.halt) ∨ ∃ e, Traps i s e ∧ t = s.raise e.cause e.info := by
  by_cases hi : i = .hlt
  · subst hi
    cases h
    exact .inr (.inl ⟨rfl, rfl⟩)
  · obtain ⟨r, hr, hacc⟩ := exec_accounted i s hi
    rw [hr] at h
    rcases commit_cases h with rfl | ⟨e, rfl, he⟩
    · exact .inl hacc
    · exact .inr (.inr ⟨e, hacc, he⟩)

end Sys2Proof.Machine
end

section
/-! The cycle of R51 by its outcomes, and the statements that follow from what an instruction may change: the writers of
FL, of the registers and of the streams, the halt, and reset. -/

namespace Sys2Proof.Machine

/-! ## The trace point (R23) -/

/-- The trace point leaves every part of the state but TRACE, and what it adds to TRACE is at most one record. -/
theorem traceStep_eq (cfg : Config) (s : State) (w : Window) :
    traceStep cfg s w = { s with trace := (traceStep cfg s w).trace } := by
  rcases traceStep_cases cfg s w with ⟨-, h⟩ | ⟨-, h⟩
  · rw [h]; rfl
  · rw [h]

@[simp] theorem traceStep_regs (cfg : Config) (s : State) (w : Window) : (traceStep cfg s w).regs = s.regs := by
  rw [traceStep_eq]

@[simp] theorem traceStep_pc (cfg : Config) (s : State) (w : Window) : (traceStep cfg s w).pc = s.pc := by
  rw [traceStep_eq]

@[simp] theorem traceStep_fl (cfg : Config) (s : State) (w : Window) : (traceStep cfg s w).fl = s.fl := by
  rw [traceStep_eq]

@[simp] theorem traceStep_mem (cfg : Config) (s : State) (w : Window) : (traceStep cfg s w).mem = s.mem := by
  rw [traceStep_eq]

@[simp] theorem traceStep_run (cfg : Config) (s : State) (w : Window) : (traceStep cfg s w).run = s.run := by
  rw [traceStep_eq]

@[simp] theorem traceStep_out (cfg : Config) (s : State) (w : Window) : (traceStep cfg s w).out = s.out := by
  rw [traceStep_eq]

@[simp] theorem traceStep_reg (cfg : Config) (s : State) (w : Window) (r : Fin 8) :
    (traceStep cfg s w).reg r = s.reg r := by
  rw [traceStep_eq]; rfl

@[simp] theorem traceStep_sp (cfg : Config) (s : State) (w : Window) : (traceStep cfg s w).sp = s.sp :=
  traceStep_reg cfg s w spIndex

@[simp] theorem traceStep_memRead (cfg : Config) (s : State) (w : Window) (c : Byte) :
    (traceStep cfg s w).memRead c = s.memRead c := by
  rw [traceStep_eq]; rfl

@[simp] theorem traceStep_windowAt (cfg : Config) (s : State) (w : Window) :
    windowAt (traceStep cfg s w) = windowAt s := by
  rw [traceStep_eq]; rfl

theorem traceStep_trace_on {cfg : Config} (h : cfg.traceEnable = true) (s : State) (w : Window) :
    (traceStep cfg s w).trace = s.trace ++ [traceRecord s w] := by
  simp [traceStep, h]

theorem traceStep_off {cfg : Config} (h : cfg.traceEnable = false) (s : State) (w : Window) :
    traceStep cfg s w = s := by
  simp [traceStep, h]

/-! ## The cycle -/

theorem fetch_eq_ok {s : State} (h : s.pc.toNat ≤ 253) : fetch s = .ok (windowAt s) := fetch_ok h

theorem runningCycle_fetchFault {cfg : Config} {s : State} (h : 253 < s.pc.toNat) :
    runningCycle cfg s = .next (s.raise .outOfRangeAddress 256) := by
  simp only [runningCycle, fetch_error h]

theorem runningCycle_illegal {cfg : Config} {s : State} {e : DecodeError} (h : s.pc.toNat ≤ 253)
    (hd : decode cfg (windowAt s) = .error e) :
    runningCycle cfg s = .next ((traceStep cfg s (windowAt s)).raise (decodeTrap e).cause (decodeTrap e).info) := by
  simp only [runningCycle, fetch_eq_ok h, hd]

theorem runningCycle_decoded {cfg : Config} {s : State} {i : Instr} (h : s.pc.toNat ≤ 253)
    (hd : decode cfg (windowAt s) = .ok i) : runningCycle cfg s = exec i (traceStep cfg s (windowAt s)) := by
  simp only [runningCycle, fetch_eq_ok h, hd]

/-- The ways a step can go (R51): a fetch fault, an illegal opcode, or the decoded instruction performed after the trace
point. -/
inductive StepWay (cfg : Config) (s t : State) : Prop where
  | fetchFault : 253 < s.pc.toNat → t = s.raise .outOfRangeAddress 256 → StepWay cfg s t
  | illegal : s.pc.toNat ≤ 253 → (∀ m, cfg.opcodeOf m ≠ s.memRead s.pc) →
      t = (traceStep cfg s (windowAt s)).raise .illegalInstruction (s.memRead s.pc).toNat → StepWay cfg s t
  | instruction (i : Instr) : s.pc.toNat ≤ 253 → decode cfg (windowAt s) = .ok i →
      exec i (traceStep cfg s (windowAt s)) = .next t → StepWay cfg s t

/-- A step that answers a next state is one of the three, taken by a running core. -/
theorem cycle_cases {cfg : Config} {s t : State} (h : cycle cfg s = .next t) : s.run = .running ∧ StepWay cfg s t := by
  have hrun := running_of_cycle h
  refine ⟨hrun, ?_⟩
  rw [cycle_running hrun] at h
  by_cases hpc : s.pc.toNat ≤ 253
  · rcases decode_cases cfg (windowAt s) with ⟨m, -, hd⟩ | ⟨hm, hd⟩
    · exact .instruction _ hpc hd (runningCycle_decoded hpc hd ▸ h)
    · rw [runningCycle_illegal hpc hd] at h
      cases h
      exact .illegal hpc hm rfl
  · have hpc : 253 < s.pc.toNat := by omega
    rw [runningCycle_fetchFault hpc] at h
    cases h
    exact .fetchFault hpc rfl

theorem opcode_at_pc {cfg : Config} {s : State} {i : Instr} (h : decode cfg (windowAt s) = .ok i) :
    s.memRead s.pc = cfg.opcodeOf i.mnemonic := (opcode_of_decode h).symm

theorem eq_hlt_of_mnemonic {i : Instr} (h : i.mnemonic = .hlt) : i = .hlt := by
  cases i with
  | hlt => rfl
  | _ => cases h

theorem mnemonic_of_opcode {cfg : Config} {s : State} {i : Instr} {m : Mnemonic}
    (h : decode cfg (windowAt s) = .ok i) (hm : s.memRead s.pc = cfg.opcodeOf m) : i.mnemonic = m :=
  cfg.opcodeOf_injective _ _ ((opcode_at_pc h).symm.trans hm)

/-- In a running core, performing an instruction ends Halted exactly when it is HLT. -/
theorem exec_halts_iff {i : Instr} {s t : State} (hs : s.run = .running) (h : exec i s = .next t) :
    t.run = .halted ↔ i = .hlt := by
  constructor
  · intro ht
    rcases exec_outcome h with hc | ⟨hi, -⟩ | ⟨e, -, rfl⟩
    · rw [hc.run_eq, hs] at ht
      cases ht
    · exact hi
    · cases ht
  · rintro rfl
    cases h
    rfl

end Sys2Proof.Machine

open Sys2Proof Sys2Proof.Machine

/-- Settles O13: of the ways a step can go only the decoded instruction can halt, and only HLT does. -/
theorem onlyHltHalts : Obligations.OnlyHltHalts := by
  intro cfg s t h
  obtain ⟨hrun, way⟩ := cycle_cases h
  refine ⟨hrun, ?_⟩
  cases way with
  | fetchFault hpc ht =>
    subst ht
    exact ⟨fun h => (nomatch h), fun ⟨hle, _⟩ => absurd hle (by omega)⟩
  | illegal _ hm ht =>
    subst ht
    exact ⟨fun h => (nomatch h), fun ⟨_, hop⟩ => absurd hop.symm (hm .hlt)⟩
  | instruction i hpc hd hx =>
    rw [exec_halts_iff (by simpa using hrun) hx]
    exact ⟨fun hi => ⟨hpc, by rw [opcode_at_pc hd, hi]; rfl⟩, fun ⟨_, hop⟩ => eq_hlt_of_mnemonic (mnemonic_of_opcode hd hop)⟩

/-- Settles O40: among the allowed changes FL is CMP's; a halt and a fault keep it. -/
theorem onlyCmpWritesFlags : Obligations.OnlyCmpWritesFlags := by
  intro i s t h hi
  rcases exec_outcome h with hc | ⟨-, rfl⟩ | ⟨e, -, rfl⟩
  · rcases hc.fl_cases with hfl | ⟨hcmp, -⟩
    · exact hfl
    · exact absurd hcmp hi
  · rfl
  · rfl

/-- Settles O42: the allowed changes write only the registers of R11's list; a halt and a fault write none. -/
theorem registersWrittenOnlyAsListed : Obligations.RegistersWrittenOnlyAsListed := by
  intro i s t h
  rcases exec_outcome h with hc | ⟨-, rfl⟩ | ⟨e, -, rfl⟩
  · exact hc.regsKept
  · exact fun _ _ => rfl
  · exact fun _ _ => rfl

/-- Settles O45: the allowed changes add at most the instruction's own event; a halt and a fault add none. -/
theorem outputGrowsOnlyByPrnAndPra : Obligations.OutputGrowsOnlyByPrnAndPra := by
  intro i s t h
  rcases exec_outcome h with hc | ⟨-, rfl⟩ | ⟨e, -, rfl⟩
  · exact ⟨hc.out_cases, hc.trace_eq⟩
  · exact ⟨.inl rfl, rfl⟩
  · exact ⟨.inl rfl, rfl⟩

/-- Settles O51: the registers are read off the reset file; a memory without an entry reads 0 at every address. -/
theorem resetLeavesTheStatedValues : Obligations.ResetLeavesTheStatedValues := by
  have regs : ∀ r : Fin 8, r ≠ spIndex → State.reset.reg r = 0x00 := by decide
  exact ⟨regs, rfl, fun _ => rfl, rfl, rfl, rfl, rfl, rfl⟩

/-- Settles O53. -/
theorem resetMeetsTheInvariant : Obligations.ResetMeetsTheInvariant := fun _ =>
  { memory := reset_mem_wf
    flags := .inl rfl
    ended := trivial
    trace := fun _ => rfl }
end

section
/-! The invariant of every step (R18, R120, R129, R143): the trace point, an instruction and the cycle keep it, so runs keep
it; and OUT and TRACE only grow (R22, R23). -/

namespace Sys2Proof.Machine

/-! ## A fault record is true of the state it is found in -/

theorem operandBytes_withOperands (m : Mnemonic) (a b : Byte) :
    (m.withOperands a b).operandBytes = [a, b].take (m.withOperands a b).operandBytes.length := by
  cases m <;> rfl

/-- The operand bytes of the decoded instruction stand after its opcode (R50, R52). -/
theorem operandBytes_of_decode {cfg : Config} {w : Window} {i : Instr} (h : decode cfg w = .ok i) :
    i.operandBytes = [w.a, w.b].take i.operandBytes.length := by
  rcases decode_cases cfg w with ⟨m, -, hd⟩ | ⟨-, hd⟩
  · rw [hd] at h
    cases h
    exact operandBytes_withOperands m w.a w.b
  · rw [hd] at h
    cases h

/-- The operand bytes of a decoded two-operand instruction are those at PC+1 and PC+2. -/
theorem operands_at_pc {cfg : Config} {s : State} {i : Instr} {a b : Byte} (h : decode cfg (windowAt s) = .ok i)
    (hab : i.operandBytes = [a, b]) : s.memRead (s.pc + 1) = a ∧ s.memRead (s.pc + 2) = b := by
  have := operandBytes_of_decode h
  rw [hab] at this
  simp only [List.length_cons, List.length_nil, List.take_succ_cons, List.take_zero, List.cons.injEq, and_true] at this
  exact ⟨this.1.symm, this.2.symm⟩

/-- Every fault the instruction at a fetchable PC can raise leaves a true record. -/
theorem faultRecordTrue_of_traps {cfg : Config} {s : State} {i : Instr} {e : Trap} (hpc : s.pc.toNat ≤ 253)
    (hd : decode cfg (windowAt s) = .ok i) (h : Traps i s e) : FaultRecordTrue cfg s e.cause e.info := by
  have hop := opcode_at_pc hd
  have hmn : ∀ {m}, i.mnemonic = m → s.memRead s.pc = cfg.opcodeOf m := fun e => hop.trans (congrArg cfg.opcodeOf e)
  cases h with
  | @operand v _ hv => exact .inr ⟨hv, by have := v.isLt; show v.toNat ≤ 255; omega, hpc⟩
  | @advance n hn hlt => exact .inl ⟨by show s.pc.toNat + n = 256; omega, by omega⟩
  | @divideByZero a b hi h0 =>
    subst hi
    obtain ⟨ha, hb⟩ := operands_at_pc hd rfl
    exact ⟨hpc, hop, a, b, ha, hb, h0, rfl⟩
  | @moduloByZero a b hi h0 =>
    subst hi
    obtain ⟨ha, hb⟩ := operands_at_pc hd rfl
    exact ⟨hpc, hop, a, b, ha, hb, h0, rfl⟩
  | stackOverflow hi h0 => exact ⟨hpc, hi.imp hmn hmn, h0, rfl⟩
  | stackUnderflow hi => exact ⟨hpc, hi.imp hmn (And.imp_left hmn), rfl⟩

/-- Entering a fault with a true record keeps the invariant. -/
theorem raise_keeps_inv {cfg : Config} {s : State} {cause : Cause} {info : Nat} (hs : Inv cfg s)
    (h : FaultRecordTrue cfg s cause info) : Inv cfg (s.raise cause info) where
  memory := hs.memory
  flags := hs.flags
  ended := ⟨rfl, by cases cause <;> exact h⟩
  trace := hs.trace

/-! ## An instruction and the cycle -/

theorem Changes.flagsLegal {i : Instr} {s t : State} (h : Changes i s t) (hs : FlagsLegal s) : FlagsLegal t := by
  unfold FlagsLegal at *
  rcases h.fl_cases with hfl | ⟨-, x, y, hfl⟩ <;> rw [hfl]
  · exact hs
  · exact .inr (compareFlags_cases x y)

/-- Performing the instruction at PC, in a running core where it can be fetched, keeps the invariant. -/
theorem exec_keeps_inv {cfg : Config} {s t : State} {i : Instr} (hs : Inv cfg s) (hrun : s.run = .running)
    (hpc : s.pc.toNat ≤ 253) (hd : decode cfg (windowAt s) = .ok i) (h : exec i s = .next t) : Inv cfg t := by
  rcases exec_outcome h with hc | ⟨rfl, rfl⟩ | ⟨e, he, rfl⟩
  · exact {
      memory := hc.mem_wf hs.memory
      flags := hc.flagsLegal hs.flags
      ended := by rw [EndTrue, hc.run_eq, hrun]; trivial
      trace := fun hoff => hc.trace_eq.trans (hs.trace hoff) }
  · exact { hs with ended := ⟨hpc, opcode_at_pc hd⟩ }
  · exact raise_keeps_inv hs (faultRecordTrue_of_traps hpc hd he)

/-- The trace point of a running core keeps the invariant. -/
theorem traceStep_keeps_inv {cfg : Config} {s : State} (hs : Inv cfg s) (hrun : s.run = .running) (w : Window) :
    Inv cfg (traceStep cfg s w) where
  memory := by simpa using hs.memory
  flags := by simpa [FlagsLegal] using hs.flags
  ended := by rw [EndTrue, traceStep_run, hrun]; trivial
  trace := fun hoff => by rw [traceStep_off hoff]; exact hs.trace hoff

theorem cycle_keeps_inv {cfg : Config} {s t : State} (hs : Inv cfg s) (h : cycle cfg s = .next t) : Inv cfg t := by
  obtain ⟨hrun, way⟩ := cycle_cases h
  have hu := traceStep_keeps_inv hs hrun (windowAt s)
  cases way with
  | fetchFault hpc ht =>
    subst ht
    exact raise_keeps_inv hs (.inl ⟨rfl, by omega⟩)
  | illegal hpc hm ht =>
    subst ht
    exact raise_keeps_inv hu (by simpa [FaultRecordTrue] using ⟨hpc, hm⟩)
  | instruction i hpc hd hx =>
    exact exec_keeps_inv hu (by simpa using hrun) (by simpa using hpc) (by simpa using hd) hx

/-! ## The streams and runs -/

/-- OUT and TRACE of `t` are those of `s` with entries added at the end. -/
def StreamsGrow (s t : State) : Prop := (∃ more, t.out = s.out ++ more) ∧ (∃ more, t.trace = s.trace ++ more)

theorem StreamsGrow.refl (s : State) : StreamsGrow s s := ⟨⟨[], by simp⟩, ⟨[], by simp⟩⟩

theorem StreamsGrow.trans {s t u : State} : StreamsGrow s t → StreamsGrow t u → StreamsGrow s u := by
  rintro ⟨⟨o, ho⟩, ⟨r, hr⟩⟩ ⟨⟨o', ho'⟩, ⟨r', hr'⟩⟩
  exact ⟨⟨o ++ o', by simp [ho', ho]⟩, ⟨r ++ r', by simp [hr', hr]⟩⟩

theorem traceStep_streamsGrow (cfg : Config) (s : State) (w : Window) : StreamsGrow s (traceStep cfg s w) := by
  rcases traceStep_cases cfg s w with ⟨-, h⟩ | ⟨-, h⟩ <;> rw [h]
  · exact ⟨⟨[], by simp⟩, ⟨[traceRecord s w], rfl⟩⟩
  · exact .refl s

theorem exec_streamsGrow {i : Instr} {s t : State} (h : exec i s = .next t) : StreamsGrow s t := by
  obtain ⟨hout, htrace⟩ := outputGrowsOnlyByPrnAndPra i s t h
  refine ⟨?_, [], by simp [htrace]⟩
  rcases hout with hout | ⟨e, -, hout⟩
  · exact ⟨[], by simp [hout]⟩
  · exact ⟨[e], hout⟩

theorem cycle_streamsGrow {cfg : Config} {s t : State} (h : cycle cfg s = .next t) : StreamsGrow s t := by
  obtain ⟨-, way⟩ := cycle_cases h
  have hu := traceStep_streamsGrow cfg s (windowAt s)
  cases way with
  | fetchFault _ ht => exact ht ▸ StreamsGrow.refl s
  | illegal _ _ ht => exact ht ▸ hu
  | instruction i _ _ hx => exact hu.trans (exec_streamsGrow hx)

/-- A run of one step more that answers a next state is that step and then the rest. -/
theorem run_succ {M : Host.Core} {k : Nat} {s t : M.State} (h : M.run (k + 1) s = .next t) :
    ∃ u, M.step s = .next u ∧ M.run k u = .next t := by
  unfold Host.Core.run at h
  split at h
  · next u hc => exact ⟨u, hc, h⟩
  · cases h
  · cases h

/-- What a step keeps, relates to the state before it and composes, runs keep. -/
theorem run_keeps {cfg : Config} {P : State → Prop} {R : State → State → Prop} (hrefl : ∀ s, R s s)
    (htrans : ∀ {s t u}, R s t → R t u → R s u)
    (hstep : ∀ {s t}, P s → cycle cfg s = .next t → P t ∧ R s t) :
    ∀ (k : Nat) (s t : State), P s → Host.Core.run (coreFor cfg) k s = .next t → P t ∧ R s t := by
  intro k
  induction k with
  | zero =>
    intro s t hs h
    cases h
    exact ⟨hs, hrefl s⟩
  | succ k ih =>
    intro s t hs h
    obtain ⟨u, hc, hrun⟩ := run_succ h
    obtain ⟨hu, hsu⟩ := hstep hs hc
    obtain ⟨ht, hut⟩ := ih u t hu hrun
    exact ⟨ht, htrans hsu hut⟩

end Sys2Proof.Machine

open Sys2Proof Sys2Proof.Machine

/-- Settles O54: `step` is the cycle under the default configuration, and every cycle keeps the invariant. -/
theorem stepKeepsTheInvariant : Obligations.StepKeepsTheInvariant := fun _ _ hs h => cycle_keeps_inv hs h

/-- Settles O55, by induction on the number of steps. -/
theorem runsKeepTheInvariantAndTheStreams : Obligations.RunsKeepTheInvariantAndTheStreams := by
  intro cfg k s t hs h
  exact run_keeps StreamsGrow.refl StreamsGrow.trans
    (fun hs hc => ⟨cycle_keeps_inv hs hc, cycle_streamsGrow hc⟩) k s t hs h
end

section
/-! What an instruction does not read. A change of the state that an instruction can neither read nor overwrite goes through
it untouched; another trace, another FL and another value in an unnamed register are such changes. -/

namespace Sys2Proof.Machine

/-! ## Changes no operation sees -/

/-- `f` changes nothing the operations read, where of the registers only those in `R` are used, and no operation but a
flag write overwrites what it changes. -/
structure Invisible (f : State → State) (R : Fin 8 → Prop) : Prop where
  usesSp : R spIndex
  pc : ∀ s, (f s).pc = s.pc
  memRead : ∀ s c, (f s).memRead c = s.memRead c
  reg : ∀ s r, R r → (f s).reg r = s.reg r
  setReg : ∀ s r v, R r → (f s).setReg r v = f (s.setReg r v)
  setPc : ∀ s p, (f s).setPc p = f (s.setPc p)
  memWrite : ∀ s a v, (f s).memWrite a v = f (s.memWrite a v)
  output : ∀ s k v, (f s).output k v = f (s.output k v)
  halt : ∀ s, (f s).halt = f s.halt
  raise : ∀ s cause info, (f s).raise cause info = f (s.raise cause info)

theorem invisible_record (e : TraceRecord) : Invisible (fun s => s.record e) (fun _ => True) where
  usesSp := trivial
  pc _ := rfl
  memRead _ _ := rfl
  reg _ _ _ := rfl
  setReg _ _ _ _ := rfl
  setPc _ _ := rfl
  memWrite _ _ _ := rfl
  output _ _ _ := rfl
  halt _ := rfl
  raise _ _ _ := rfl

theorem invisible_setFl (v : BitVec 3) : Invisible (fun s => s.setFl v) (fun _ => True) where
  usesSp := trivial
  pc _ := rfl
  memRead _ _ := rfl
  reg _ _ _ := rfl
  setReg _ _ _ _ := rfl
  setPc _ _ := rfl
  memWrite _ _ _ := rfl
  output _ _ _ := rfl
  halt _ := rfl
  raise _ _ _ := rfl

theorem invisible_setReg {r : Fin 8} (hr : r ≠ spIndex) (v : Byte) : Invisible (fun s => s.setReg r v) (r ≠ ·) where
  usesSp := hr
  pc _ := rfl
  memRead _ _ := rfl
  reg s _ hq := s.reg_setReg_ne hq v
  setReg s _ w hq := s.setReg_comm hq v w
  setPc _ _ := rfl
  memWrite _ _ _ := rfl
  output _ _ _ := rfl
  halt _ := rfl
  raise _ _ _ := rfl

/-! ## The shared operations carry an unseen change along -/

namespace Invisible

variable {f : State → State} {R : Fin 8 → Prop}

theorem sp (hf : Invisible f R) (s : State) : (f s).sp = s.sp := hf.reg s spIndex hf.usesSp

/-- A fault entered from the changed state is the fault with the change. -/
theorem commit_next (hf : Invisible f R) {s t : State} {r r' : Except Trap State} (hr : r' = r.map f)
    (h : commit s r = .next t) : commit (f s) r' = .next (f t) := by
  subst hr
  cases r with
  | ok u =>
    cases h
    rfl
  | error e =>
    cases h
    exact congrArg Host.Outcome.next (hf.raise s e.cause e.info)

theorem sequential (hf : Invisible f R) (s : State) (n : Nat) : (f s).sequential n = s.sequential n := by
  simp only [State.sequential, hf.pc]

theorem finish (hf : Invisible f R) (s u : State) (n : Nat) : finish (f s) n (f u) = (finish s n u).map f := by
  simp only [Machine.finish, hf.sequential]
  cases s.sequential n with
  | ok p => exact congrArg Except.ok (hf.setPc u p)
  | error e => rfl

theorem withReg {a : Byte} {k k' : Fin 8 → Except Trap State} (hk : ∀ r, a = regByte r → k' r = (k r).map f) :
    withReg a k' = (withReg a k).map f := by
  rcases operand_cases a with ⟨r, rfl⟩ | hbad
  · simpa using hk r rfl
  · simp only [withReg_bad hbad, Except.map]

theorem withRegs {a b : Byte} {k k' : Fin 8 → Fin 8 → Except Trap State}
    (hk : ∀ r q, a = regByte r → b = regByte q → k' r q = (k r q).map f) :
    withRegs a b k' = (withRegs a b k).map f :=
  withReg fun r hr => withReg fun q hq => hk r q hr hq

theorem alu2 (hf : Invisible f R) {a b : Byte} (op : Byte → Byte → Except Trap Byte)
    (hab : ∀ r, regByte r ∈ [a, b] → R r) (s : State) : alu2 op a b (f s) = (alu2 op a b s).map f := by
  refine withRegs fun r q hr hq => ?_
  have hRr : R r := hab r (by simp [hr])
  rw [hf.reg s r hRr, hf.reg s q (hab q (by simp [hq]))]
  cases op (s.reg r) (s.reg q) with
  | ok v => simp only [ok_bind_eq, hf.setReg s r v hRr, hf.finish]
  | error e => rfl

theorem alu1 (hf : Invisible f R) {a : Byte} (op : Byte → Byte) (n : Nat) (ha : ∀ r, regByte r ∈ [a] → R r)
    (s : State) : alu1 op n a (f s) = (alu1 op n a s).map f := by
  refine withReg fun r hr => ?_
  have hRr : R r := ha r (by simp [hr])
  rw [hf.reg s r hRr, hf.setReg s r _ hRr, hf.finish]

theorem jumpIf (hf : Invisible f R) {a : Byte} {c c' : Bool} (hc : c' = c) (ha : ∀ r, regByte r ∈ [a] → R r)
    (s : State) : jumpIf c' a (f s) = (jumpIf c a s).map f := by
  subst hc
  refine withReg fun r hr => ?_
  cases c' with
  | true => exact congrArg Except.ok (by rw [hf.reg s r (ha r (by simp [hr])), hf.setPc])
  | false => exact hf.finish s s 2

/-- A push, and what follows it: the pushed value must be the same. -/
theorem push (hf : Invisible f R) {s : State} {v v' : State → Except Trap Byte} {k k' : State → Except Trap State}
    (hv : ∀ u, v' (f u) = v u) (hk : ∀ u, k' (f u) = (k u).map f) :
    ((f s).push v' >>= k') = (s.push v >>= k).map f := by
  by_cases hs : s.sp = 0x00
  · rw [push_overflow hs, push_overflow (by rw [hf.sp, hs])]
    rfl
  · rw [push_ok hs, push_ok (by rwa [hf.sp]), hf.sp, hf.setReg _ _ _ hf.usesSp, hv]
    cases v (s.setReg spIndex (s.sp - 1)) with
    | ok b => simp only [Except.map, ok_bind_eq, hf.memWrite, hk]
    | error e => rfl

end Invisible

/-! ## Every instruction -/

/-- The jumps that read FL (R93 to R98). -/
abbrev conditionalJumps : List Mnemonic := [.jeq, .jne, .jgt, .jge, .jlt, .jle]

/-- Performing an instruction carries an unseen change along: one that keeps the registers the instruction names, FL if it
is a conditional jump, and that a CMP does not overwrite. -/
theorem exec_invisible {f : State → State} {R : Fin 8 → Prop} (hf : Invisible f R) {i : Instr} {s t : State}
    (hi : ∀ r, regByte r ∈ i.registerOperands → R r) (hfl : i.mnemonic ∈ conditionalJumps → (f s).fl = s.fl)
    (hcmp : i.mnemonic = .cmp → ∀ v, (f s).setFl v = f (s.setFl v)) (h : exec i s = .next t) :
    exec i (f s) = .next (f t) := by
  cases i with
  | nop => exact hf.commit_next (hf.finish s s 2) h
  | hlt =>
    cases h
    exact congrArg Host.Outcome.next (hf.halt s)
  | ret =>
    refine hf.commit_next ?_ h
    by_cases hs : s.sp = 0xFF
    · rw [pop_underflow hs, pop_underflow (by rw [hf.sp, hs])]
      rfl
    · rw [pop_ok hs, pop_ok (by rwa [hf.sp]), hf.sp, hf.memRead, hf.setReg _ _ _ hf.usesSp]
      exact congrArg Except.ok (hf.setPc _ _)
  | push a =>
    refine hf.commit_next (Invisible.withReg fun r hr => hf.push (fun u => ?_) fun u => hf.finish s u 2) h
    rw [hf.reg u r (hi r (hr ▸ .head _))]
  | pop a =>
    refine hf.commit_next (Invisible.withReg fun r hr => ?_) h
    rw [hf.sp, hf.memRead, hf.setReg _ _ _ (hi r (hr ▸ .head _))]
    by_cases hs : (s.setReg r (s.memRead s.sp)).sp = 0xFF
    · rw [incSp_underflow hs, incSp_underflow (by rw [hf.sp, hs])]
      rfl
    · rw [incSp_ok hs, incSp_ok (by rwa [hf.sp]), hf.sp, hf.setReg _ _ _ hf.usesSp]
      exact hf.finish s _ 2
  | prn a | pra a =>
    refine hf.commit_next (Invisible.withReg fun r hr => ?_) h
    rw [hf.reg s r (hi r (hr ▸ .head _)), hf.output, hf.finish]
  | call a =>
    refine hf.commit_next (Invisible.withReg fun r hr => hf.push (fun u => hf.sequential u 2) fun u => ?_) h
    rw [hf.reg u r (hi r (hr ▸ .head _))]
    exact congrArg Except.ok (hf.setPc _ _)
  | jmp a => exact hf.commit_next (hf.jumpIf rfl hi s) h
  | jeq a | jne a | jgt a | jlt a | jle a | jge a =>
    have hfl : (f s).fl = s.fl := hfl (by simp [conditionalJumps, Instr.mnemonic])
    refine hf.commit_next (hf.jumpIf ?_ hi s) h
    simp only [condEq, condNe, condGt, condGe, condLt, condLe, State.flE, State.flG, State.flL, hfl]
  | inc a | dec a | not a => exact hf.commit_next (hf.alu1 _ _ hi s) h
  | ldi a b =>
    refine hf.commit_next (Invisible.withReg fun r hr => ?_) h
    rw [hf.setReg s r b (hi r (hr ▸ .head _)), hf.finish]
  | ld a b =>
    refine hf.commit_next (Invisible.withRegs fun r q hr hq => ?_) h
    rw [hf.reg s q (hi q (hq ▸ .tail _ (.head _))), hf.memRead, hf.setReg s r _ (hi r (hr ▸ .head _)), hf.finish]
  | st a b =>
    refine hf.commit_next (Invisible.withRegs fun r q hr hq => ?_) h
    rw [stAddress, hf.reg s r (hi r (hr ▸ .head _)), hf.reg s q (hi q (hq ▸ .tail _ (.head _))), hf.memWrite, hf.finish]
    rfl
  | cmp a b =>
    refine hf.commit_next (Invisible.withRegs fun r q hr hq => ?_) h
    rw [hf.reg s r (hi r (hr ▸ .head _)), hf.reg s q (hi q (hq ▸ .tail _ (.head _))), hcmp rfl, hf.finish]
  | add a b | sub a b | mul a b | div a b | mod a b | and a b | or a b | xor a b | shl a b | shr a b =>
    exact hf.commit_next (hf.alu2 _ hi s) h

/-! ## CMP and FL -/

theorem eq_cmp_of_mnemonic {i : Instr} (h : i.mnemonic = .cmp) : ∃ a b, i = .cmp a b := by
  cases i with
  | cmp a b => exact ⟨a, b, rfl⟩
  | _ => cases h

/-- CMP does the same whatever FL holds, and when it completes the FL it found is overwritten. -/
theorem exec_cmp_setFl {a b : Byte} {s t : State} (v : BitVec 3) (h : exec (.cmp a b) s = .next t) :
    (t.run = s.run ∧ exec (.cmp a b) (s.setFl v) = .next t) ∨
    ∃ cause info, t = s.raise cause info ∧ exec (.cmp a b) (s.setFl v) = .next ((s.setFl v).raise cause info) := by
  rcases commit_cases h with hr | ⟨e, hr, he⟩
  · refine .inl ⟨?_, congrArg (commit (s.setFl v)) hr⟩
    obtain ⟨r, q, -, -, hk⟩ := withRegs_eq_ok hr
    obtain ⟨p, -, rfl⟩ := finish_eq_ok hk
    rfl
  · exact .inr ⟨e.cause, e.info, he, congrArg (commit (s.setFl v)) hr⟩

/-! ## Tracing -/

/-- Performing an instruction with one record more in TRACE gives the same state with that record. -/
theorem exec_record {i : Instr} {s t : State} (e : TraceRecord) (h : exec i s = .next t) :
    exec i (s.record e) = .next (t.record e) :=
  exec_invisible (invisible_record e) (fun _ _ => trivial) (fun _ => rfl) (fun _ _ => rfl) h

/-- What a step does after its fetch, with the trace left out, is what it does without the trace point. -/
theorem eraseTrace_exec_traceStep (cfg : Config) (i : Instr) (s : State) (w : Window) :
    eraseTrace (exec i (traceStep cfg s w)) = eraseTrace (exec i s) := by
  obtain ⟨t, ht⟩ := exec_next i s
  rcases traceStep_cases cfg s w with ⟨-, h⟩ | ⟨-, h⟩ <;> rw [h]
  rw [exec_record _ ht, ht]
  rfl

theorem eraseTrace_raise_traceStep (cfg : Config) (s : State) (w : Window) (cause : Cause) (info : Nat) :
    eraseTrace (.next ((traceStep cfg s w).raise cause info)) = eraseTrace (.next (s.raise cause info)) := by
  rw [traceStep_eq]
  rfl

/-- A step with the trace left out does not depend on TRACE_ENABLE. -/
theorem eraseTrace_cycle (cfg : Config) (on : Bool) (s : State) :
    eraseTrace (cycle cfg s) = eraseTrace (cycle { cfg with traceEnable := on } s) := by
  cases hrun : s.run with
  | halted | faulted _ _ _ => simp only [cycle, hrun]
  | running =>
    rw [cycle_running hrun, cycle_running hrun]
    by_cases hpc : s.pc.toNat ≤ 253
    · have hd : decode { cfg with traceEnable := on } (windowAt s) = decode cfg (windowAt s) := rfl
      cases hi : decode cfg (windowAt s) with
      | ok i =>
        rw [runningCycle_decoded hpc hi, runningCycle_decoded hpc (hd.trans hi), eraseTrace_exec_traceStep,
          eraseTrace_exec_traceStep]
      | error e =>
        rw [runningCycle_illegal hpc hi, runningCycle_illegal hpc (hd.trans hi), eraseTrace_raise_traceStep,
          eraseTrace_raise_traceStep]
    · rw [runningCycle_fetchFault (by omega), runningCycle_fetchFault (by omega)]

end Sys2Proof.Machine

open Sys2Proof Sys2Proof.Machine

/-- Settles O14: no step reads TRACE, and no instruction writes it, so the trace point's record is all there is. -/
theorem tracingHasNoOtherEffect : Obligations.TracingHasNoOtherEffect := by
  intro cfg s t hon
  refine ⟨eraseTrace_cycle cfg false s, fun h => ?_⟩
  obtain ⟨-, way⟩ := cycle_cases h
  cases way with
  | fetchFault hpc ht => rw [if_pos hpc, ht, State.raise_trace]
  | illegal hpc _ ht =>
    rw [if_neg (by omega), ht, State.raise_trace, traceStep_trace_on hon]
    rfl
  | instruction i hpc _ hx =>
    rw [if_neg (by omega), (outputGrowsOnlyByPrnAndPra i _ t hx).2, traceStep_trace_on hon]
    rfl

/-- Settles O41: outside the conditional jumps another FL is a change the instruction does not see; CMP overwrites it. -/
theorem onlyConditionalJumpsReadFlags : Obligations.OnlyConditionalJumpsReadFlags := by
  intro i s t v hrun h hi
  by_cases hcmp : i.mnemonic = .cmp
  · obtain ⟨a, b, rfl⟩ := eq_cmp_of_mnemonic hcmp
    rcases exec_cmp_setFl v h with ⟨ht, hv⟩ | ⟨cause, info, rfl, hv⟩
    · rw [if_pos ⟨rfl, ht.trans hrun⟩, hv]
    · rw [if_neg (fun hc => nomatch hc.2), hv]
      rfl
  · rw [if_neg (fun hc => hcmp hc.1)]
    exact exec_invisible (invisible_setFl v) (fun _ _ => trivial) (fun hj => absurd hj hi) (fun hc => absurd hc hcmp) h

/-- Settles O43: another value in an unnamed register is a change the instruction does not see. -/
theorem unnamedRegistersDoNotMatter : Obligations.UnnamedRegistersDoNotMatter := by
  intro i r v s t hr hnot h
  exact exec_invisible (invisible_setReg hr v) (fun q hq e => hnot _ hq (e ▸ rfl)) (fun _ => rfl) (fun _ _ => rfl) h
end

section
/-! Where PC goes (R16, R55, R90), and the fault of a register operand out of its domain (R14). -/

namespace Sys2Proof.Machine

/-! ## PC after an instruction -/

/-- PC has moved by ADV(m), or to the target of a jump, CALL or RET. -/
def PcMoves (i : Instr) (s t : State) : Prop :=
  (∃ n, i.mnemonic.adv = some n ∧ t.pc.toNat = s.pc.toNat + n) ∨
  (i.mnemonic ∈ [Mnemonic.jmp, .jeq, .jne, .jgt, .jge, .jlt, .jle] ∧
    ∃ r, i.registerOperands = [regByte r] ∧ t.pc = s.reg r) ∨
  (i.mnemonic = .call ∧ ∃ r, i.registerOperands = [regByte r] ∧ t.pc = t.reg r) ∨
  (i.mnemonic = .ret ∧ t.pc = s.memRead s.sp)

theorem Moves.pcMoves {i : Instr} {s u t : State} {n : Nat} (h : Moves s n u t) (hn : i.mnemonic.adv = some n) :
    PcMoves i s t := by
  obtain ⟨p, hp, rfl⟩ := h
  exact .inl ⟨n, hn, hp⟩

/-- A jump, taken or not. -/
theorem pcMoves_of_jump {i : Instr} {s t : State} {a : Byte} {taken untaken : Prop}
    (hi : i.mnemonic ∈ conditionalJumps) (ha : i.registerOperands = [a]) (hn : i.mnemonic.adv = some 2)
    (h : ∃ r, a = regByte r ∧ ((taken ∧ t = s.setPc (s.reg r)) ∨ (untaken ∧ Moves s 2 s t))) : PcMoves i s t := by
  obtain ⟨r, rfl, ⟨-, rfl⟩ | ⟨-, hm⟩⟩ := h
  · exact .inr (.inl ⟨.tail _ hi, r, ha, rfl⟩)
  · exact hm.pcMoves hn

/-- Every instruction but HLT moves PC by the table. -/
theorem Effect.pcMoves {i : Instr} {s t : State} (hi : i ≠ .hlt) (h : Effect i s t) : PcMoves i s t := by
  cases i with
  | hlt => exact absurd rfl hi
  | nop => exact Moves.pcMoves h rfl
  | ret =>
    obtain ⟨-, rfl⟩ := h
    exact .inr (.inr (.inr ⟨rfl, rfl⟩))
  | call a =>
    obtain ⟨r, q, rfl, -, -, rfl⟩ := h
    exact .inr (.inr (.inl ⟨rfl, r, rfl, rfl⟩))
  | jmp a =>
    obtain ⟨r, rfl, rfl⟩ := h
    exact .inr (.inl ⟨.head _, r, rfl, rfl⟩)
  | jeq a | jne a | jgt a | jlt a | jle a | jge a =>
    exact pcMoves_of_jump (by simp [conditionalJumps, Instr.mnemonic]) rfl rfl h
  | push a | pop a =>
    obtain ⟨r, -, -, hm⟩ := h
    exact hm.pcMoves rfl
  | prn a | pra a | inc a | dec a | not a | ldi a b =>
    obtain ⟨r, -, hm⟩ := h
    exact hm.pcMoves rfl
  | ld a b | st a b | add a b | sub a b | mul a b | cmp a b | and a b | or a b | xor a b | shl a b | shr a b =>
    obtain ⟨r, q, -, -, hm⟩ := h
    exact hm.pcMoves rfl
  | div a b | mod a b =>
    obtain ⟨r, q, -, -, -, hm⟩ := h
    exact hm.pcMoves rfl

/-- A step of a decoded instruction that goes on moves PC by the table. -/
theorem exec_pcMoves {i : Instr} {s t : State} (h : exec i s = .next t) (ht : t.run = .running) : PcMoves i s t := by
  rcases exec_cases h with heff | ⟨cause, info, rfl⟩
  · refine heff.pcMoves ?_
    rintro rfl
    cases heff
    cases ht
  · cases ht

/-! ## The operand check -/

theorem registerByteOk_eq_false {v : Byte} : registerByteOk v = false ↔ 7 < v.toNat := by
  simp [registerByteOk]

theorem wf_iff_no_bad_operand (i : Instr) : i.wf = true ↔ i.firstBadOperand = none := by
  simp [Instr.wf, Instr.firstBadOperand]

/-- A format R instruction's bad operand is its one operand. -/
theorem bad_of_one {a v : Byte} (h : [a].find? (fun v => Bool.not (registerByteOk v)) = some v) :
    v = a ∧ 7 < a.toNat := by
  cases ha : registerByteOk a <;> simp [ha] at h
  exact ⟨h.symm, registerByteOk_eq_false.mp ha⟩

/-- A bad operand of a format R instruction is raised by its check. -/
theorem raisesIn_withReg {i : Instr} {s : State} {a v : Byte} {k : Fin 8 → Except Trap State}
    (ha : i.registerOperands = [a]) (hx : exec i s = commit s (withReg a k)) (h : i.firstBadOperand = some v) :
    RaisesIn i s .outOfRangeAddress v.toNat := by
  rw [Instr.firstBadOperand, ha] at h
  obtain ⟨rfl, hbad⟩ := bad_of_one h
  rw [RaisesIn, hx, withReg_bad hbad]
  rfl

/-- A bad operand of a format RR instruction is raised by its check, `a` before `b`. -/
theorem raisesIn_withRegs {i : Instr} {s : State} {a b v : Byte} {k : Fin 8 → Fin 8 → Except Trap State}
    (hab : i.registerOperands = [a, b]) (hx : exec i s = commit s (withRegs a b k)) (h : i.firstBadOperand = some v) :
    RaisesIn i s .outOfRangeAddress v.toNat := by
  rw [Instr.firstBadOperand, hab] at h
  rw [RaisesIn, hx]
  rcases operand_cases a with ⟨r, rfl⟩ | hbad
  · have hr : registerByteOk (regByte r) = true := by simp [registerByteOk]; omega
    rw [List.find?_cons_of_neg (by simp [hr])] at h
    obtain ⟨rfl, hbad⟩ := bad_of_one h
    rw [withRegs_bad_b r hbad]
    rfl
  · rw [List.find?_cons_of_pos (by simp [registerByteOk_eq_false.mpr hbad])] at h
    cases h
    rw [withRegs_bad_a hbad]
    rfl

/-- The first register operand above 7 is raised whatever the instruction would do (R14). -/
theorem raisesIn_of_bad_operand {i : Instr} {v : Byte} (s : State) (h : i.firstBadOperand = some v) :
    RaisesIn i s .outOfRangeAddress v.toNat := by
  cases i with
  | nop | hlt | ret => cases h
  | push a | pop a | prn a | pra a | call a | jmp a | jeq a | jne a | jgt a | jlt a | jle a | jge a | inc a | dec a
  | not a | ldi a b => exact raisesIn_withReg rfl rfl h
  | ld a b | st a b | add a b | sub a b | mul a b | div a b | mod a b | cmp a b | and a b | or a b | xor a b | shl a b
  | shr a b => exact raisesIn_withRegs rfl rfl h

end Sys2Proof.Machine

open Sys2Proof Sys2Proof.Machine

/-- Settles O7: the operand check stands before everything else an instruction does. -/
theorem badRegisterOperandFaults : Obligations.BadRegisterOperandFaults :=
  fun i => ⟨wf_iff_no_bad_operand i, fun _ s h => raisesIn_of_bad_operand s h⟩

/-- Settles O47: a step that goes on is a decoded instruction that completed, and the trace point keeps what it reads. -/
theorem programCounterMovesByTheTable : Obligations.ProgramCounterMovesByTheTable := by
  intro cfg s t i _ hd h ht
  obtain ⟨-, way⟩ := cycle_cases h
  cases way with
  | fetchFault _ he => subst he; cases ht
  | illegal _ _ he => subst he; cases ht
  | instruction j hpc hj hx =>
    obtain rfl : j = i := Except.ok.inj (hj.symm.trans hd)
    exact ⟨hpc, by simpa [PcMoves] using exec_pcMoves hx ht⟩
end

section
/-! Memory (R30 to R32, R41): the one cell an instruction may store to, what the fetch after an ST reads, and that the
canonical form keeps equal memories as equal data. -/

namespace Sys2Proof.Machine

/-! ## The cell an instruction stores to -/

theorem Changes.cellsKept {i : Instr} {s t : State} (h : Changes i s t) :
    CellsKept (fun c => storeAddress i s = some c) s t := by
  induction h with
  | start | output _ | setFl _ _ _ => exact fun _ _ => rfl
  | @memWrite u a v _ hst ih =>
    intro c hc
    have hne : c ≠ a := fun e => hc (e ▸ hst)
    rw [State.memRead_memWrite, if_neg hne, ih c hc]
  | setReg _ _ _ ih | setPc _ _ ih => exact ih

/-! ## The fetch after an ST -/

theorem decode_st (cfg : Config) (a b : Byte) : decode cfg ⟨cfg.opcodeOf .st, a, b⟩ = .ok (.st a b) := by
  simp [decode, Mnemonic.withOperands]

/-- An ST of two registers whose advance fits makes its one store and moves PC by 2. -/
theorem exec_st {s : State} (h : s.pc.toNat + 2 ≤ 255) (a b : Fin 8) :
    exec (.st (regByte a) (regByte b)) s = .next ((s.memWrite (s.reg a) (s.reg b)).setPc (s.pc + 2)) := by
  obtain ⟨p, hfin, hp⟩ := finish_ok h (s.memWrite (s.reg a) (s.reg b))
  obtain rfl : p = s.pc + 2 := by bv_omega
  change commit s (withRegs _ _ fun ra rb => finish s 2 (s.memWrite (s.reg ra) (s.reg rb))) = _
  rw [withRegs_regByte, hfin, commit_ok]

/-- The window at PC is read cell by cell from what the store left. -/
theorem windowAt_memWrite_setPc (s : State) (x v p : Byte) :
    windowAt ((s.memWrite x v).setPc p) =
      ⟨if x = p then v else s.memRead p,
       if x = p + 1 then v else s.memRead (p + 1),
       if x = p + 2 then v else s.memRead (p + 2)⟩ := by
  simp only [windowAt, State.setPc_pc, State.setPc_memRead, State.memRead_memWrite, eq_comm (b := x)]

/-! ## The canonical form lists exactly the cells that are not 0 -/

/-- Entries stand at rising addresses. -/
def AddressLt (c d : Host.Cell) : Prop := c.1 < d.1

theorem Memory.wf_iff (m : Memory) :
    m.wf = true ↔ m.Pairwise AddressLt ∧ ∀ c ∈ m, c.1 < memSize ∧ c.2 ≠ 0 := by
  induction m with
  | nil => simp [Memory.wf]
  | cons c m ih =>
    rw [Memory.wf_cons, ih, List.pairwise_cons, List.forall_mem_cons]
    exact ⟨fun ⟨hk, hv, hlt, hp, hm⟩ => ⟨⟨hlt, hp⟩, ⟨hk, hv⟩, hm⟩,
      fun ⟨⟨hlt, hp⟩, ⟨hk, hv⟩, hm⟩ => ⟨hk, hv, hlt, hp, hm⟩⟩

/-- With rising addresses no earlier entry hides a listed one. -/
theorem Memory.read_of_mem {m : Memory} (h : m.Pairwise AddressLt) {c : Host.Cell} (hc : c ∈ m) : m.read c.1 = c.2 := by
  induction h with
  | nil => cases hc
  | @cons d m hlt _ ih =>
    rcases List.mem_cons.mp hc with rfl | hc
    · simp [Memory.read]
    · have hne : d.1 ≠ c.1 := Nat.ne_of_lt (hlt c hc)
      simpa [Memory.read, hne] using ih hc

theorem Memory.mem_of_read_ne_zero {m : Memory} {a : Nat} (h : m.read a ≠ 0) : (a, m.read a) ∈ m := by
  induction m with
  | nil => exact absurd rfl h
  | cons d m ih =>
    by_cases hd : d.1 = a
    · simp [Memory.read, ← hd]
    · simp only [Memory.read, if_neg hd] at h ⊢
      exact .tail _ (ih h)

theorem Memory.mem_iff_of_wf {m : Memory} (h : m.wf = true) (c : Host.Cell) :
    c ∈ m ↔ c.1 < memSize ∧ c.2 ≠ 0 ∧ m.read c.1 = c.2 := by
  obtain ⟨hp, hm⟩ := m.wf_iff.mp h
  constructor
  · intro hc
    exact ⟨(hm c hc).1, (hm c hc).2, Memory.read_of_mem hp hc⟩
  · rintro ⟨-, hv, hr⟩
    have hmem := Memory.mem_of_read_ne_zero (hr.symm ▸ hv)
    rwa [hr] at hmem

end Sys2Proof.Machine

open Sys2Proof Sys2Proof.Machine

/-- Settles O44: among the allowed changes the only store is to the cell of R32; a halt and a fault store nothing. -/
theorem memoryWrittenOnlyByStores : Obligations.MemoryWrittenOnlyByStores := by
  intro i s t h
  rcases exec_outcome h with hc | ⟨-, rfl⟩ | ⟨e, -, rfl⟩
  · exact hc.cellsKept
  · exact fun _ _ => rfl
  · exact fun _ _ => rfl

/-- Settles O48: the step is `exec_st` after the trace point, and its result's window is read through the store. -/
theorem storeIsSeenByTheNextFetch : Obligations.StoreIsSeenByTheNextFetch := by
  intro cfg s a b hrun hpc hw
  have hd : decode cfg (windowAt s) = .ok (.st (regByte a) (regByte b)) := hw ▸ decode_st cfg _ _
  have hstep := runningCycle_decoded (by omega) hd
  rw [exec_st (by rw [traceStep_pc]; omega)] at hstep
  refine ⟨_, (cycle_running hrun).trans hstep, by simp, ?_⟩
  rw [fetch_eq_ok (by simp only [State.setPc_pc, traceStep_pc]; bv_omega), windowAt_memWrite_setPc]
  simp [BitVec.add_assoc]

/-- Settles O50: both lists stand at rising addresses and hold the same cells, those that do not read 0. -/
theorem equalMemoriesAreEqualData : Obligations.EqualMemoriesAreEqualData := by
  intro m n hm hn hread
  have : Std.Irrefl AddressLt := ⟨fun c => Nat.lt_irrefl c.1⟩
  have : Std.Antisymm AddressLt := ⟨fun _ _ h h' => absurd h (Nat.lt_asymm h')⟩
  refine (m.wf_iff.mp hm).1.eq_of_mem_iff (n.wf_iff.mp hn).1 fun c => ?_
  rw [Memory.mem_iff_of_wf hm, Memory.mem_iff_of_wf hn]
  exact and_congr_right fun hc => by rw [hread c.1 hc]
end

section
/-! The encoding (R50, R52, R54, R56): decoder and encoder are inverse to each other under every OPCODE_MAP, and the bytes
that are no opcode are exactly those rejected. -/

namespace Sys2Proof

/-! ## Decoding an opcode -/

/-- The opcode of a mnemonic decodes to it with the two bytes that follow (R9, R54). -/
theorem decode_opcodeOf (cfg : Config) (m : Mnemonic) (a b : Byte) :
    decode cfg ⟨cfg.opcodeOf m, a, b⟩ = .ok (m.withOperands a b) := by
  simp only [decode, mnemonicOf_opcodeOf]

/-- R56: a window is rejected exactly when its opcode byte is no mnemonic's. -/
theorem decode_illegal_iff (cfg : Config) (w : Window) :
    decode cfg w = .error (.illegalInstruction w.ir) ↔ ∀ m, cfg.opcodeOf m ≠ w.ir := by
  rcases decode_cases cfg w with ⟨m, hm, hd⟩ | ⟨hm, hd⟩
  · rw [hd]
    exact ⟨fun h => (nomatch h), fun h => absurd hm (h m)⟩
  · exact ⟨fun _ => hm, fun _ => hd⟩

/-! ## The operand bytes -/

/-- Of the two bytes after the opcode, those a format uses (R52). -/
def Format.usedBytes (f : Format) (a b : Byte) : List Byte :=
  match f with
  | .z => []
  | .r => [a]
  | .rr | .ri => [a, b]

/-- A mnemonic's instruction holds the bytes its format uses and no other. -/
theorem operandBytes_eq_usedBytes (m : Mnemonic) (a b : Byte) :
    (m.withOperands a b).operandBytes = m.format.usedBytes a b := by
  cases m <;> rfl

/-- An instruction is its mnemonic with the bytes that begin with its operand bytes. -/
theorem withOperands_operandBytes (i : Instr) (rest : List Byte) :
    i.mnemonic.withOperands ((i.operandBytes ++ rest).getD 0 0) ((i.operandBytes ++ rest).getD 1 0) = i := by
  cases i <;> rfl

/-- Mnemonic and operand bytes decide an instruction, so no two instructions share an encoding. -/
theorem instr_ext {i j : Instr} (hm : i.mnemonic = j.mnemonic) (hb : i.operandBytes = j.operandBytes) : i = j := by
  rw [← withOperands_operandBytes i [], hm, hb, withOperands_operandBytes]

/-- Two windows with one opcode decode alike exactly when the bytes its format uses agree (R52). -/
theorem decode_eq_iff_usedBytes_eq (cfg : Config) (m : Mnemonic) (a b x y : Byte) :
    decode cfg ⟨cfg.opcodeOf m, a, b⟩ = decode cfg ⟨cfg.opcodeOf m, x, y⟩ ↔
      m.format.usedBytes a b = m.format.usedBytes x y := by
  rw [decode_opcodeOf, decode_opcodeOf, Except.ok.injEq, ← operandBytes_eq_usedBytes, ← operandBytes_eq_usedBytes]
  exact ⟨congrArg Instr.operandBytes, instr_ext (by simp only [mnemonic_withOperands])⟩

/-! ## The bytes that are opcodes -/

/-- The image of OPCODE_MAP, as numbers. -/
def opcodeNumbers (cfg : Config) : Finset Nat := Mnemonic.all.toFinset.image (fun m => (cfg.opcodeOf m).toNat)

theorem mem_opcodeNumbers {cfg : Config} {v : Nat} : v ∈ opcodeNumbers cfg ↔ ∃ m, (cfg.opcodeOf m).toNat = v := by
  simp [opcodeNumbers, Mnemonic.mem_all]

/-- The 32 mnemonics have 32 opcodes (R54: OPCODE_MAP is injective). -/
theorem card_opcodeNumbers (cfg : Config) : (opcodeNumbers cfg).card = 32 := by
  have hinj : Function.Injective (fun m => (cfg.opcodeOf m).toNat) :=
    fun m n h => cfg.opcodeOf_injective m n (BitVec.eq_of_toNat_eq h)
  rw [opcodeNumbers, Finset.card_image_of_injective _ hinj]
  decide

theorem opcodeNumbers_subset_range (cfg : Config) : opcodeNumbers cfg ⊆ Finset.range 256 := by
  intro v hv
  obtain ⟨m, rfl⟩ := mem_opcodeNumbers.mp hv
  exact Finset.mem_range.mpr (cfg.opcodeOf m).isLt

theorem mnemonicOf_isNone_iff {cfg : Config} {v : Nat} (hv : v < 256) :
    (mnemonicOf cfg.opcodeOf (BitVec.ofNat 8 v)).isNone = true ↔ v ∉ opcodeNumbers cfg := by
  rw [Option.isNone_iff_eq_none, mnemonicOf_eq_none, mem_opcodeNumbers, not_exists]
  refine forall_congr' fun m => not_congr ?_
  rw [← BitVec.toNat_inj, BitVec.toNat_ofNat, Nat.mod_eq_of_lt hv]

end Sys2Proof

open Sys2Proof Sys2Proof.Machine

/-- Settles O3: the opcode gives the mnemonic back, and the mnemonic with the bytes after it is the instruction. -/
theorem decodeOfEncodeIsTheInstruction : Obligations.DecodeOfEncodeIsTheInstruction := by
  intro cfg i rest
  calc decode cfg (Window.ofBytes (encode cfg i ++ rest))
      = .ok (i.mnemonic.withOperands ((i.operandBytes ++ rest).getD 0 0) ((i.operandBytes ++ rest).getD 1 0)) :=
        decode_opcodeOf cfg i.mnemonic _ _
    _ = .ok i := by rw [withOperands_operandBytes]

/-- Settles O4: the first byte is the opcode of what is decoded, and its operand bytes stand after it. -/
theorem decodedWindowBeginsWithEncoding : Obligations.DecodedWindowBeginsWithEncoding := by
  intro cfg w i h
  rw [encode, opcode_of_decode h, List.length_cons, List.take_succ_cons, ← operandBytes_of_decode h]

/-- Settles O5: the rejected bytes are the 256 without the 32 opcodes. -/
theorem unmappedOpcodesAreIllegal : Obligations.UnmappedOpcodesAreIllegal := by
  refine ⟨decode_illegal_iff, fun cfg => ?_⟩
  have hset : ((List.range 256).filter (fun v => (mnemonicOf cfg.opcodeOf (BitVec.ofNat 8 v)).isNone)).toFinset =
      Finset.range 256 \ opcodeNumbers cfg := by
    ext v
    rw [List.mem_toFinset, List.mem_filter, List.mem_range, Finset.mem_sdiff, Finset.mem_range]
    exact and_congr_right mnemonicOf_isNone_iff
  rw [← List.toFinset_card_of_nodup (List.nodup_range.filter _), hset,
    Finset.card_sdiff_of_subset (opcodeNumbers_subset_range cfg), card_opcodeNumbers, Finset.card_range]

/-- Settles O1: seven are rows of the default map; 0x52 is in none of its rows. -/
theorem sampleWordsDecode : Obligations.SampleWordsDecode := by
  have row := decode_opcodeOf Config.default
  exact ⟨row .ldi _ _, row .st _ _, row .push _ _, row .jge _ _, row .sub _ _, row .ret _ _, row .not _ _,
    (decode_illegal_iff _ _).mpr fun m => by cases m <;> decide⟩

/-- Settles O2: each row is `decode_opcodeOf` at its mnemonic. -/
theorem defaultTableDecodes : Obligations.DefaultTableDecodes := by
  intro a b
  have row := fun m => decode_opcodeOf Config.default m a b
  exact ⟨row .nop, row .hlt, row .ret, row .push, row .pop, row .prn, row .pra, row .call, row .jmp, row .jeq, row .jne,
    row .jgt, row .jlt, row .jle, row .jge, row .inc, row .dec, row .not, row .ldi, row .ld, row .st, row .add, row .sub,
    row .mul, row .div, row .mod, row .cmp, row .and, row .or, row .xor, row .shl, row .shr⟩

/-- Settles O6: format by format, from the bytes it uses. -/
theorem ignoredBytesHaveNoEffect : Obligations.IgnoredBytesHaveNoEffect := by
  intro cfg m a b x y
  simp only [ne_eq, decode_eq_iff_usedBytes_eq]
  refine ⟨fun hz => ?_, fun hr => ?_, fun hf hne => ?_⟩
  · rw [hz]; rfl
  · rw [hr]; rfl
  · rcases hf with hrr | hri
    · simpa [hrr, Format.usedBytes] using hne
    · simpa [hri, Format.usedBytes] using hne
end

section
/-! The step of a running core (R51): it performs what the window decodes to, and it always answers a next state. -/

namespace Sys2Proof.Machine

/-- The trace point in the words of R23. -/
theorem traceStep_eq_withRecord (cfg : Config) (s : State) (w : Window) : traceStep cfg s w = withRecord cfg s w := rfl

/-- A running core whose window decodes performs the instruction, PC still at its own address (R15). -/
theorem cycle_decoded {cfg : Config} {s : State} {i : Instr} (hrun : s.run = .running) (hpc : s.pc.toNat ≤ 253)
    (hd : decode cfg (windowAt s) = .ok i) : cycle cfg s = exec i (withRecord cfg s (windowAt s)) := by
  rw [cycle_running hrun, runningCycle_decoded hpc hd, traceStep_eq_withRecord]

theorem cycle_halted {cfg : Config} {s : State} (h : s.run = .halted) : cycle cfg s = .fault .coreHalted := by
  simp only [cycle, h]

theorem cycle_faulted {cfg : Config} {s : State} {cause : Cause} {pc : Byte} {info : Nat}
    (h : s.run = .faulted cause pc info) : cycle cfg s = .fault (.coreFaulted cause pc info) := by
  simp only [cycle, h]

/-- Each way the step of a running core can go answers a next state: both faults are states, and `exec` is total. -/
theorem runningCycle_next (cfg : Config) (s : State) : ∃ t, runningCycle cfg s = .next t := by
  by_cases hpc : s.pc.toNat ≤ 253
  · cases hd : decode cfg (windowAt s) with
    | ok i => exact (runningCycle_decoded hpc hd).symm ▸ exec_next i _
    | error e => exact ⟨_, runningCycle_illegal hpc hd⟩
  · exact ⟨_, runningCycle_fetchFault (by omega)⟩

end Sys2Proof.Machine

open Sys2Proof Sys2Proof.Machine

/-- Settles O11: a running core steps whatever it fetches; the two ends of a run answer their own fault. -/
theorem exactlyRunningCoresStep : Obligations.ExactlyRunningCoresStep := fun cfg s =>
  ⟨fun h => (cycle_running h).symm ▸ runningCycle_next cfg s, cycle_halted, fun _ _ _ => cycle_faulted⟩

/-- Settles O8: `cycle_decoded`; under the default configuration, which does not trace, no record is added. -/
theorem stepRunsTheDecodedInstruction : Obligations.StepRunsTheDecodedInstruction :=
  ⟨fun _ _ => cycle_decoded, fun _ _ _ => cycle_decoded⟩
end

section
/-! Data movement (R70 to R72), by rules the other register-operand instructions share: an operand byte above 7, an
instruction that ends with an advance, and one whose only effect besides is a register write. -/

namespace Sys2Proof.Machine

/-! ## Operand bytes above 7 (R14) -/

theorem firstBadOperand_first {i : Instr} {a : Byte} {l : List Byte} (hi : i.registerOperands = a :: l)
    (ha : 7 < a.toNat) : i.firstBadOperand = some a := by
  rw [Instr.firstBadOperand, hi, List.find?_cons_of_pos (by rw [registerByteOk_eq_false.mpr ha]; rfl)]

/-- A first operand in its domain leaves the check to the others. -/
theorem firstBadOperand_second {i : Instr} {a b : Byte} (hi : i.registerOperands = [a, b]) (ha : a.toNat ≤ 7)
    (hb : 7 < b.toNat) : i.firstBadOperand = some b := by
  have hok : registerByteOk a = true := decide_eq_true ha
  rw [Instr.firstBadOperand, hi, List.find?_cons_of_neg (by simp [hok]),
    List.find?_cons_of_pos (by rw [registerByteOk_eq_false.mpr hb]; rfl)]

/-- A mnemonic whose instruction has both bytes after its opcode as register operands is of format RR. -/
theorem formatRR_of_registerOperands {m : Mnemonic} {mk : Byte → Byte → Instr}
    (hmk : ∀ a b, m.withOperands a b = mk a b) (hops : ∀ a b, (mk a b).registerOperands = [a, b]) :
    FormatRR m mk := by
  refine ⟨fun cfg a b => ?_, fun a b s ha => ?_, fun a b s ha hb => ?_⟩
  · rw [decode_opcodeOf, hmk]
  · exact raisesIn_of_bad_operand s (firstBadOperand_first (hops a b) ha)
  · exact raisesIn_of_bad_operand s (firstBadOperand_second (hops a b) ha hb)

/-! ## Instructions that end with an advance (R16) -/

/-- An advance past address 255 is raised and discards the instruction's other effects. -/
theorem raisesIn_of_advance {i : Instr} {s u : State} {n : Nat} (hx : exec i s = commit s (finish s n u))
    (h : 255 < s.pc.toNat + n) : RaisesIn i s .outOfRangeAddress (s.pc.toNat + n) := by
  rw [RaisesIn, hx, finish_error h]
  rfl

theorem onlyRegs_setReg_setPc (s : State) (a : Fin 8) (v p : Byte) : OnlyRegs (· = a) s ((s.setReg a v).setPc p) :=
  ⟨fun _ hr => s.reg_setReg_ne (Ne.symm hr) v, fun _ _ => rfl, rfl, rfl, rfl, rfl⟩

/-- An instruction that writes one register and advances within the address space changes nothing else. -/
theorem exec_setReg_completes {i : Instr} {s : State} {n : Nat} {a : Fin 8} {v : Byte}
    (hx : exec i s = commit s (finish s n (s.setReg a v))) (h : s.pc.toNat + n ≤ 255) :
    ∃ t, exec i s = .next t ∧ t.reg a = v ∧ t.pc.toNat = s.pc.toNat + n ∧ OnlyRegs (· = a) s t := by
  obtain ⟨p, hfin, hp⟩ := finish_ok h (s.setReg a v)
  rw [hfin, commit_ok] at hx
  exact ⟨_, hx, s.reg_setReg_same a v, hp, onlyRegs_setReg_setPc s a v p⟩

/-! ## LDI and LD on registers -/

theorem exec_ldi (a : Fin 8) (b : Byte) (s : State) :
    exec (.ldi (regByte a) b) s = commit s (finish s 3 (s.setReg a b)) :=
  congrArg (commit s) (withReg_regByte a _)

theorem exec_ld (a b : Fin 8) (s : State) :
    exec (.ld (regByte a) (regByte b)) s = commit s (finish s 3 (s.setReg a (s.memRead (s.reg b)))) :=
  congrArg (commit s) (withRegs_regByte a b _)

end Sys2Proof.Machine

open Sys2Proof Sys2Proof.Machine

/-- Settles O15: once its operand names a register, LDI is a register write followed by an advance of 3. -/
theorem ldiLoadsItsLiteral : Obligations.LdiLoadsItsLiteral :=
  ⟨fun cfg => decode_opcodeOf cfg .ldi,
   fun _ _ s ha => raisesIn_of_bad_operand s (firstBadOperand_first rfl ha),
   fun a b s => raisesIn_of_advance (exec_ldi a b s),
   fun a b s => exec_setReg_completes (exec_ldi a b s)⟩

/-- Settles O16: `exec_ld` reads the address in the state before the register write, so `a = b` is no special case. -/
theorem ldLoadsTheAddressedByte : Obligations.LdLoadsTheAddressedByte :=
  ⟨formatRR_of_registerOperands (fun _ _ => rfl) (fun _ _ => rfl),
   fun a b s => raisesIn_of_advance (exec_ld a b s),
   fun a b s => exec_setReg_completes (exec_ld a b s)⟩

/-- Settles O17: `exec_st` gives the next state, one store with PC moved by 2; the cells are read through the store. -/
theorem stStoresToTheAddressedCell : Obligations.StStoresToTheAddressedCell := by
  refine ⟨formatRR_of_registerOperands (fun _ _ => rfl) (fun _ _ => rfl), fun a b s h => ?_⟩
  have hstored : (s.memWrite (s.reg a) (s.reg b)).memRead (stAddress s a) = s.reg b := s.memRead_memWrite_same _ _
  have hpc : (s.pc + 2).toNat = s.pc.toNat + 2 := by bv_omega
  have hcells : CellsKept (· = stAddress s a) s (s.memWrite (s.reg a) (s.reg b)) := fun c hc =>
    (s.memRead_memWrite _ _ c).trans (if_neg hc)
  exact ⟨_, exec_st h a b, hstored, rfl, hpc, hcells, fun _ _ => rfl, rfl, rfl, rfl, rfl⟩
end

section
/-! Output and machine control (R75 to R78): format R in one lemma, an advance that completes, and the four
instructions by them. -/

namespace Sys2Proof.Machine

/-! ## Shared rules -/

/-- A mnemonic whose instruction has the byte after its opcode as its only operand, a register, is of format R. -/
theorem formatR_of_registerOperands {m : Mnemonic} {mk : Byte → Instr} (hmk : ∀ a x, m.withOperands a x = mk a)
    (hops : ∀ a, (mk a).registerOperands = [a]) : FormatR m mk := by
  refine ⟨fun cfg a x => ?_, fun a s ha => ?_⟩
  · rw [decode_opcodeOf, hmk]
  · exact raisesIn_of_bad_operand s (firstBadOperand_first (hops a) ha)

/-- An advance within the address space completes the instruction, its other effects as they are. -/
theorem exec_advance_completes {i : Instr} {s u : State} {n : Nat} (hx : exec i s = commit s (finish s n u))
    (h : s.pc.toNat + n ≤ 255) : ∃ p : Byte, exec i s = .next (u.setPc p) ∧ p.toNat = s.pc.toNat + n := by
  obtain ⟨p, hfin, hp⟩ := finish_ok h u
  exact ⟨p, by rw [hx, hfin, commit_ok], hp⟩

theorem onlyRegs_setPc (s : State) (p : Byte) : OnlyRegs (fun _ => False) s (s.setPc p) :=
  ⟨fun _ _ => rfl, fun _ _ => rfl, rfl, rfl, rfl, rfl⟩

/-! ## PRN and PRA -/

theorem exec_prn (a : Fin 8) (s : State) :
    exec (.prn (regByte a)) s = commit s (finish s 2 (s.output .int (s.reg a))) :=
  congrArg (commit s) (withReg_regByte a _)

theorem exec_pra (a : Fin 8) (s : State) :
    exec (.pra (regByte a)) s = commit s (finish s 2 (s.output .char (s.reg a))) :=
  congrArg (commit s) (withReg_regByte a _)

/-- An instruction of format R that outputs its register and advances 2 follows the rule of the output instructions. -/
theorem outputRule_of_exec {m : Mnemonic} {mk : Byte → Instr} {kind : OutKind} (hfmt : FormatR m mk)
    (hx : ∀ (a : Fin 8) (s : State), exec (mk (regByte a)) s = commit s (finish s 2 (s.output kind (s.reg a)))) :
    OutputRule m mk kind := by
  refine ⟨hfmt, fun a s h => ?_⟩
  obtain ⟨p, hnext, hp⟩ := exec_advance_completes (hx a s) h
  exact ⟨_, hnext, s.output_out kind (s.reg a), hp, fun _ _ => rfl, fun _ _ => rfl, rfl, rfl, rfl⟩

/-! ## HLT and NOP -/

theorem exec_hlt (s : State) : exec .hlt s = .next s.halt := commit_ok s s.halt

theorem exec_nop (s : State) : exec .nop s = commit s (finish s 2 s) := rfl

end Sys2Proof.Machine

open Sys2Proof Sys2Proof.Machine

/-- Settles O18: both are of format R and differ only in the kind of their event. -/
theorem prnAndPraEmitTheRegister : Obligations.PrnAndPraEmitTheRegister :=
  ⟨outputRule_of_exec (formatR_of_registerOperands (fun _ _ => rfl) (fun _ => rfl)) exec_prn,
   outputRule_of_exec (formatR_of_registerOperands (fun _ _ => rfl) (fun _ => rfl)) exec_pra⟩

/-- Settles O19: the next state is `s.halt`, which differs from `s` in RUN alone. -/
theorem hltOnlyEndsTheRun : Obligations.HltOnlyEndsTheRun :=
  ⟨fun cfg => decode_opcodeOf cfg .hlt,
   fun s => ⟨_, exec_hlt s, s.halt_run, s.halt_pc, fun r _ => s.halt_reg r, fun c _ => s.halt_memRead c, s.halt_fl,
     s.halt_out, s.halt_trace⟩⟩

/-- Settles O20: NOP is an advance of 2 with no other effect, and its format uses no operand byte. -/
theorem nopOnlyAdvancesByTwo : Obligations.NopOnlyAdvancesByTwo := by
  refine ⟨fun cfg => decode_opcodeOf cfg .nop, fun s h => ?_⟩
  obtain ⟨p, hnext, hp⟩ := exec_advance_completes (exec_nop s) h
  exact ⟨_, hnext, hp, onlyRegs_setPc s p⟩
end

section
/-! The stack and subroutines (R80 to R85): the state a push leaves, each of the four instructions on a register by what it
commits, and a push undone by a pop. -/

namespace Sys2Proof.Machine

/-! ## The state a push leaves (R80) -/

/-- `s` after a push of `v` that did not overflow. -/
def State.pushed (s : State) (v : Byte) : State := (s.setReg spIndex (s.sp - 1)).memWrite (pushAddress s) v

theorem push_eq_pushed {s : State} (h : s.sp ≠ 0x00) (v : State → Except Trap Byte) :
    s.push v = (v (s.setReg spIndex (s.sp - 1))).map s.pushed := push_ok h v

/-- Register 7 is the decremented SP, as the forms that name it read it (D20). -/
theorem State.pushed_reg (s : State) (v : Byte) (r : Fin 8) :
    (s.pushed v).reg r = if r = spIndex then pushAddress s else s.reg r := by
  rw [State.pushed, State.memWrite_reg, State.reg_setReg, pushAddress]
  exact if_congr eq_comm rfl rfl

theorem State.pushed_sp (s : State) (v : Byte) : (s.pushed v).sp = pushAddress s := s.pushed_reg v spIndex

theorem State.pushed_memRead_same (s : State) (v : Byte) : (s.pushed v).memRead (pushAddress s) = v :=
  State.memRead_memWrite_same _ _ v

/-- Above an SP of 0 the decrement does not wrap. -/
theorem pushAddress_toNat {s : State} (h : s.sp ≠ 0x00) : (pushAddress s).toNat = s.sp.toNat - 1 := by
  have hne : s.sp.toNat ≠ 0 := fun e => h (BitVec.eq_of_toNat_eq e)
  rw [pushAddress]
  bv_omega

/-- `t` differs from `s` only in SP, in PC and in the cell a push stores to. -/
def PushKeeps (s t : State) : Prop := RegsKept (· = spIndex) s t ∧ CellsKept (· = pushAddress s) s t ∧ RestKept s t

theorem pushKeeps_pushed_setPc (s : State) (v p : Byte) : PushKeeps s ((s.pushed v).setPc p) :=
  ⟨fun r hr => (s.pushed_reg v r).trans (if_neg hr), fun c hc => (State.memRead_memWrite _ _ v c).trans (if_neg hc),
    rfl, rfl, rfl, rfl⟩

/-! ## PUSH and CALL on a register -/

theorem exec_push (a : Fin 8) (s : State) :
    exec (.push (regByte a)) s = commit s (s.push (fun s1 => .ok (s1.reg a)) >>= finish s 2) :=
  congrArg (commit s) (withReg_regByte a _)

theorem exec_call (a : Fin 8) (s : State) :
    exec (.call (regByte a)) s =
      commit s (s.push (fun s1 => s1.sequential 2) >>= fun t => .ok (t.setPc (t.reg a))) :=
  congrArg (commit s) (withReg_regByte a _)

/-- An instruction that begins with a push overflows at SP 0, whatever follows the push. -/
theorem raisesIn_of_push {i : Instr} {s : State} {v : State → Except Trap Byte} {k : State → Except Trap State}
    (hx : exec i s = commit s (s.push v >>= k)) (h : s.sp = 0x00) : RaisesIn i s .stackOverflow 0x00 := by
  rw [RaisesIn, hx, push_overflow h]
  rfl

theorem exec_push_of_sp_ne {s : State} (h : s.sp ≠ 0x00) (a : Fin 8) :
    exec (.push (regByte a)) s = commit s (finish s 2 (s.pushed (if a = spIndex then pushAddress s else s.reg a))) := by
  have hval : (s.setReg spIndex (s.sp - 1)).reg a = if a = spIndex then pushAddress s else s.reg a := s.pushed_reg 0 a
  rw [exec_push, push_eq_pushed h, hval]
  rfl

theorem exec_call_of_sp_ne {s : State} (h : s.sp ≠ 0x00) (hpc : s.pc.toNat + 2 ≤ 255) (a : Fin 8) :
    exec (.call (regByte a)) s =
      .next ((s.pushed (s.pc + 2)).setPc (if a = spIndex then pushAddress s else s.reg a)) := by
  have hseq : (s.setReg spIndex (s.sp - 1)).sequential 2 = .ok (s.pc + 2) := by
    rw [sequential_ok (s := s.setReg spIndex (s.sp - 1)) hpc]
    exact congrArg Except.ok (BitVec.eq_of_toNat_eq (by simp))
  rw [exec_call, push_eq_pushed h, hseq, ← s.pushed_reg (s.pc + 2) a]
  rfl

/-! ## POP on a register, and RET -/

theorem exec_pop (a : Fin 8) (s : State) :
    exec (.pop (regByte a)) s = commit s ((s.setReg a (s.memRead s.sp)).incSp >>= finish s 2) :=
  congrArg (commit s) (withReg_regByte a _)

/-- POP's check is of register 7 as its load left it (R83). -/
theorem raisesIn_pop {a : Fin 8} {s : State} (h : (if a = spIndex then s.memRead s.sp else s.sp) = 0xFF) :
    RaisesIn (.pop (regByte a)) s .stackUnderflow 0xFF := by
  rw [RaisesIn, exec_pop, incSp_underflow ((s.sp_setReg a _).trans h)]
  rfl

theorem exec_pop_of_ne {a : Fin 8} {s : State} (ha : a ≠ spIndex) (h : s.sp ≠ 0xFF) :
    exec (.pop (regByte a)) s =
      commit s (finish s 2 ((s.setReg a (s.memRead s.sp)).setReg spIndex (s.sp + 1))) := by
  have hsp : (s.setReg a (s.memRead s.sp)).sp = s.sp := s.reg_setReg_ne ha _
  rw [exec_pop, incSp_ok (ne_of_eq_of_ne hsp h), hsp]
  rfl

theorem exec_pop_spIndex {s : State} (h : s.memRead s.sp ≠ 0xFF) :
    exec (.pop (regByte spIndex)) s = commit s (finish s 2 (s.setReg spIndex (s.memRead s.sp + 1))) := by
  have hsp := s.sp_setReg_spIndex (s.memRead s.sp)
  rw [exec_pop, incSp_ok (ne_of_eq_of_ne hsp h), hsp, State.setReg_setReg_same]
  rfl

theorem exec_ret (s : State) : exec .ret s = commit s (s.pop >>= fun p => .ok (p.2.setPc p.1)) := rfl

theorem raisesIn_ret {s : State} (h : s.sp = 0xFF) : RaisesIn .ret s .stackUnderflow 0xFF := by
  rw [RaisesIn, exec_ret, pop_underflow h]
  rfl

theorem exec_ret_of_sp_ne {s : State} (h : s.sp ≠ 0xFF) :
    exec .ret s = .next ((s.setReg spIndex (s.sp + 1)).setPc (s.memRead s.sp)) := by
  rw [exec_ret, pop_ok h]
  rfl

/-- Below 0xFF the increment does not wrap. -/
theorem toNat_add_one_of_ne {v : Byte} (h : v ≠ 0xFF) : (v + 1).toNat = v.toNat + 1 := by
  have hne : v.toNat ≠ 255 := fun e => h (BitVec.eq_of_toNat_eq e)
  bv_omega

/-! ## A push undone by a pop -/

/-- A pop can follow a push: the decrement stays below 0xFF. -/
theorem sp_ne_of_decremented {s t : State} (h : t.sp.toNat = s.sp.toNat - 1) : t.sp ≠ 0xFF := by
  have hlt := s.sp.isLt
  intro e
  rw [e] at h
  have : (0xFF : Byte).toNat = 255 := rfl
  omega

/-- The increment takes back a decrement that did not wrap. -/
theorem sp_restored {s t u : State} (hs : s.sp ≠ 0x00) (ht : t.sp.toNat = s.sp.toNat - 1)
    (hu : u.sp.toNat = t.sp.toNat + 1) : u.sp = s.sp := by
  have hne : s.sp.toNat ≠ 0 := fun e => hs (BitVec.eq_of_toNat_eq e)
  exact BitVec.eq_of_toNat_eq (by omega)

/-- What a push and a pop after it that gives SP back leave as it was: all but the pop's own destination and the cell. -/
theorem kept_of_push_pop {changed : Fin 8 → Prop} {s t u : State} (hpush : PushKeeps s t)
    (hpop : OnlyRegs (fun r => changed r ∨ r = spIndex) t u) (hsp : u.sp = s.sp) :
    RegsKept changed s u ∧ CellsKept (· = pushAddress s) s u ∧ RestKept s u := by
  obtain ⟨hregs, hcells, hfl, hrun, hout, htrace⟩ := hpush
  obtain ⟨hregs', hcells', hfl', hrun', hout', htrace'⟩ := hpop
  refine ⟨fun r hr => ?_, fun c hc => (hcells' c id).trans (hcells c hc), hfl'.trans hfl, hrun'.trans hrun,
    hout'.trans hout, htrace'.trans htrace⟩
  by_cases h7 : r = spIndex
  · rw [h7]
    exact hsp
  · exact (hregs' r (not_or.mpr ⟨hr, h7⟩)).trans (hregs r h7)

end Sys2Proof.Machine

open Sys2Proof Sys2Proof.Machine

/-- Settles O21: once its value is read, PUSH is `State.pushed` and an advance of 2. -/
theorem pushStoresBelowTheStackPointer : Obligations.PushStoresBelowTheStackPointer := by
  refine ⟨formatR_of_registerOperands (fun _ _ => rfl) (fun _ => rfl), fun a s => raisesIn_of_push (exec_push a s),
    fun a s h hpc => ?_⟩
  obtain ⟨p, hnext, hp⟩ := exec_advance_completes (exec_push_of_sp_ne h a) hpc
  refine ⟨_, hnext, ?_⟩
  rw [State.setPc_sp, State.pushed_sp]
  exact ⟨pushAddress_toNat h, rfl, s.pushed_memRead_same _, hp, pushKeeps_pushed_setPc s _ p⟩

/-- Settles O22: POP of register 7 writes that register alone; every other POP writes its own and then register 7. -/
theorem popLoadsThenIncrements : Obligations.PopLoadsThenIncrements := by
  refine ⟨formatR_of_registerOperands (fun _ _ => rfl) (fun _ => rfl), fun a s => raisesIn_pop,
    fun a s ha h hpc => ?_, fun s h hpc => ?_⟩
  · obtain ⟨p, hnext, hp⟩ := exec_advance_completes (exec_pop_of_ne ha h) hpc
    have hload : ((s.setReg a (s.memRead s.sp)).setReg spIndex (s.sp + 1)).reg a = s.memRead s.sp := by
      rw [State.reg_setReg_ne _ ha.symm, State.reg_setReg_same]
    have hsp : ((s.setReg a (s.memRead s.sp)).setReg spIndex (s.sp + 1)).sp.toNat = s.sp.toNat + 1 := by
      rw [State.sp_setReg_spIndex, toNat_add_one_of_ne h]
    refine ⟨_, hnext, hload, hsp, hp, fun r hr => ?_, fun _ _ => rfl, rfl, rfl, rfl, rfl⟩
    obtain ⟨hra, hr7⟩ := not_or.mp hr
    rw [State.setPc_reg, State.reg_setReg_ne _ (Ne.symm hr7), State.reg_setReg_ne _ (Ne.symm hra)]
  · obtain ⟨t, hnext, hsp, hp, hkept⟩ := exec_setReg_completes (exec_pop_spIndex h) hpc
    exact ⟨t, hnext, (congrArg BitVec.toNat hsp).trans (toNat_add_one_of_ne h), hp, hkept⟩

/-- Settles O23: the push stores PC + 2, and the target is read in the state it leaves. -/
theorem callPushesTheReturnAddress : Obligations.CallPushesTheReturnAddress := by
  refine ⟨formatR_of_registerOperands (fun _ _ => rfl) (fun _ => rfl), fun a s => raisesIn_of_push (exec_call a s),
    fun a s h hpc => ?_⟩
  have hret : ((s.pushed (s.pc + 2)).memRead (pushAddress s)).toNat = s.pc.toNat + 2 := by
    rw [s.pushed_memRead_same]
    bv_omega
  refine ⟨_, exec_call_of_sp_ne h hpc a, ?_⟩
  rw [State.setPc_sp, State.pushed_sp]
  exact ⟨pushAddress_toNat h, rfl, hret, rfl, pushKeeps_pushed_setPc s _ _⟩

/-- Settles O24: RET writes register 7 and PC, both from the state before it. -/
theorem retPopsTheProgramCounter : Obligations.RetPopsTheProgramCounter := by
  refine ⟨fun cfg => decode_opcodeOf cfg .ret, fun s => raisesIn_ret, fun s h => ?_⟩
  have hsp : (s.setReg spIndex (s.sp + 1)).sp.toNat = s.sp.toNat + 1 := by
    rw [State.sp_setReg_spIndex, toNat_add_one_of_ne h]
  exact ⟨_, exec_ret_of_sp_ne h, rfl, hsp, onlyRegs_setReg_setPc s spIndex _ _⟩

/-- Settles O25: the rules of PUSH and POP one after the other; the pop reads the cell the push stored to. -/
theorem pushThenPopRestores : Obligations.PushThenPopRestores := by
  intro r r' s hr hr' hs hpc
  obtain ⟨-, -, hpush⟩ := pushStoresBelowTheStackPointer
  obtain ⟨-, -, hpop, -⟩ := popLoadsThenIncrements
  obtain ⟨t, hxt, htsp, hcell, hval, htpc, htkept⟩ := hpush r s hs (by omega)
  obtain ⟨u, hxu, hload, husp, hupc, hukept⟩ := hpop r' t hr' (sp_ne_of_decremented htsp) (by omega)
  have hsp : u.sp = s.sp := sp_restored hs htsp husp
  rw [hcell, if_neg hr] at hval
  exact ⟨t, u, hxt, hxu, hload.trans hval, hsp, by omega, kept_of_push_pop htkept hukept hsp⟩

/-- Settles O26: the rules of CALL and RET one after the other; RET pops the return address CALL stored. -/
theorem retUndoesCall : Obligations.RetUndoesCall := by
  intro a s hs hpc
  obtain ⟨-, -, hcall⟩ := callPushesTheReturnAddress
  obtain ⟨-, -, hret⟩ := retPopsTheProgramCounter
  obtain ⟨t, hxt, htsp, hcell, hval, -, htkept⟩ := hcall a s hs hpc
  obtain ⟨u, hxu, hupc, husp, hukept⟩ := hret t (sp_ne_of_decremented htsp)
  have hpop : OnlyRegs (fun r => False ∨ r = spIndex) t u := by simpa using hukept
  rw [hcell, ← hupc] at hval
  exact ⟨t, u, hxt, hxu, hval, kept_of_push_pop htkept hpop (sp_restored hs htsp husp)⟩
end

section
/-! Compare and jumps (R90 to R98): CMP and JMP on registers, what each bit of FL says after a CMP, the rule that the
conditional jumps share, and a CMP followed by one of them. -/

namespace Sys2Proof.Machine

/-! ## CMP and JMP on registers -/

theorem exec_cmp (a b : Fin 8) (s : State) :
    exec (.cmp (regByte a) (regByte b)) s =
      commit s (finish s 3 (s.setFl (compareFlags (s.reg a) (s.reg b)))) :=
  congrArg (commit s) (withRegs_regByte a b _)

theorem exec_jmp (a : Fin 8) (s : State) : exec (.jmp (regByte a)) s = .next (s.setPc (s.reg a)) :=
  congrArg (commit s) (jumpIf_taken a s)

/-- CMP within the address space writes FL and PC and nothing else. -/
theorem exec_cmp_completes (a b : Fin 8) {s : State} (h : s.pc.toNat + 3 ≤ 255) :
    ∃ t, exec (.cmp (regByte a) (regByte b)) s = .next t ∧ t.fl = compareFlags (s.reg a) (s.reg b) ∧
      t.pc.toNat = s.pc.toNat + 3 ∧ RegsKept (fun _ => False) s t ∧ CellsKept (fun _ => False) s t ∧
      t.run = s.run ∧ t.out = s.out ∧ t.trace = s.trace := by
  obtain ⟨p, hnext, hp⟩ := exec_advance_completes (exec_cmp a b s) h
  exact ⟨_, hnext, rfl, hp, fun _ _ => rfl, fun _ _ => rfl, rfl, rfl, rfl⟩

/-! ## The bits CMP writes (R91) -/

/-- After a CMP each bit of FL says whether one of the three unsigned relations holds (D14). -/
theorem compareFlags_bits_iff (x y : Byte) :
    ((compareFlags x y).getLsbD 0 = true ↔ x.toNat = y.toNat) ∧
    ((compareFlags x y).getLsbD 1 = true ↔ x.toNat > y.toNat) ∧
    ((compareFlags x y).getLsbD 2 = true ↔ x.toNat < y.toNat) := by
  rcases lt_trichotomy x.toNat y.toNat with h | h | h
  · rw [compareFlags_lt h]
    simp [h, h.ne, h.le]
  · rw [compareFlags_eq h]
    simp [h]
  · rw [compareFlags_gt h]
    simp [h, h.ne', h.le]

/-! ## The conditional jumps (R90) -/

/-- A jump of format R that is taken by a condition on FL follows the rule of the conditional jumps. -/
theorem jumpRule_of_exec {m : Mnemonic} {mk : Byte → Instr} {cond : BitVec 3 → Bool} (hfmt : FormatR m mk)
    (hx : ∀ (a : Byte) (s : State), exec (mk a) s = commit s (jumpIf (cond s.fl) a s)) : JumpRule m mk cond := by
  refine ⟨hfmt, fun a s hc => ?taken, fun a s hc hpc => ?untaken⟩
  case taken =>
    have hnext : exec (mk (regByte a)) s = .next (s.setPc (s.reg a)) := by rw [hx, hc, jumpIf_taken, commit_ok]
    exact ⟨_, hnext, rfl, onlyRegs_setPc s _⟩
  case untaken =>
    have hadv : exec (mk (regByte a)) s = commit s (finish s 2 s) := by rw [hx, hc, jumpIf_untaken]
    obtain ⟨p, hnext, hp⟩ := exec_advance_completes hadv hpc
    exact ⟨_, hnext, hp, onlyRegs_setPc s p⟩

/-! ## A conditional jump after a CMP -/

theorem RegsKept.trans {changed : Fin 8 → Prop} {s t u : State} (h : RegsKept changed s t)
    (h' : RegsKept changed t u) : RegsKept changed s u := fun r hr => (h' r hr).trans (h r hr)

theorem CellsKept.trans {changed : Byte → Prop} {s t u : State} (h : CellsKept changed s t)
    (h' : CellsKept changed t u) : CellsKept changed s u := fun c hc => (h' c hc).trans (h c hc)

/-- A conditional jump whose condition, on the flags CMP computes, is a relation of the operands tests that relation when
it follows a CMP. -/
theorem jumpsWhen_of_jumpRule {m : Mnemonic} {mk : Byte → Instr} {cond : BitVec 3 → Bool} {rel : Nat → Nat → Prop}
    (hjump : JumpRule m mk cond) (hrel : ∀ x y, cond (compareFlags x y) = true ↔ rel x.toNat y.toNat) :
    JumpsWhen mk rel := by
  intro a b c s hpc
  obtain ⟨-, htaken, huntaken⟩ := hjump
  obtain ⟨t, hcmp, hfl, htpc, htregs, htcells, -⟩ := exec_cmp_completes a b (s := s) (by omega)
  have htest : cond t.fl = true ↔ rel (s.reg a).toNat (s.reg b).toNat := by rw [hfl, hrel]
  cases hc : cond t.fl with
  | true =>
    obtain ⟨u, hu, hupc, hregs, hcells, -⟩ := htaken c t hc
    exact ⟨t, u, hcmp, hu, fun _ => hupc.trans (htregs c id), fun hn => absurd (htest.mp hc) hn,
      htregs.trans hregs, htcells.trans hcells⟩
  | false =>
    obtain ⟨u, hu, hupc, hregs, hcells, -⟩ := huntaken c t hc (by omega)
    exact ⟨t, u, hcmp, hu, fun hr => absurd (htest.mpr hr) (ne_true_of_eq_false hc), fun _ => by omega,
      htregs.trans hregs, htcells.trans hcells⟩

end Sys2Proof.Machine

open Sys2Proof Sys2Proof.Machine

/-- Settles O27: CMP is a write of FL and an advance of 3; `compareFlags` has one value per unsigned relation. -/
theorem cmpSetsExactlyOneFlag : Obligations.CmpSetsExactlyOneFlag := by
  refine ⟨formatRR_of_registerOperands (fun _ _ => rfl) (fun _ _ => rfl),
    fun a b s => raisesIn_of_advance (exec_cmp a b s), fun a b s hpc => ?_⟩
  obtain ⟨t, hnext, hfl, hkept⟩ := exec_cmp_completes a b hpc
  exact ⟨t, hnext, fun h => hfl.trans (compareFlags_eq h), fun h => hfl.trans (compareFlags_gt h),
    fun h => hfl.trans (compareFlags_lt h), hkept⟩

/-- Settles O28: the next state is `s` with PC replaced. -/
theorem jmpAlwaysJumps : Obligations.JmpAlwaysJumps :=
  ⟨formatR_of_registerOperands (fun _ _ => rfl) (fun _ => rfl),
   fun a s => ⟨_, exec_jmp a s, rfl, onlyRegs_setPc s _⟩⟩

/-- Settles O29: the five conditions are functions of FL alone, so each jump is a case of `jumpRule_of_exec`. -/
theorem conditionalJumpsReadTheirFlags : Obligations.ConditionalJumpsReadTheirFlags := by
  refine ⟨?_, ?_, ?_, ?_, ?_⟩ <;>
    exact jumpRule_of_exec (formatR_of_registerOperands (fun _ _ => rfl) (fun _ => rfl)) (fun _ _ => rfl)

/-- Settles O30: the condition of JNE is FL.E = 0, whatever the other two bits are (D15). -/
theorem jneJumpsWhenEqualIsClear : Obligations.JneJumpsWhenEqualIsClear :=
  jumpRule_of_exec (formatR_of_registerOperands (fun _ _ => rfl) (fun _ => rfl)) (fun _ _ => rfl)

/-- Settles O31: the rules of the six jumps (O29, O30), each condition read off the bits of `compareFlags`. -/
theorem cmpThenJumpTestsTheRelation : Obligations.CmpThenJumpTestsTheRelation := by
  obtain ⟨hjeq, hjgt, hjge, hjlt, hjle⟩ := conditionalJumpsReadTheirFlags
  refine ⟨jumpsWhen_of_jumpRule hjeq fun x y => ?eq, jumpsWhen_of_jumpRule jneJumpsWhenEqualIsClear fun x y => ?ne,
    jumpsWhen_of_jumpRule hjgt fun x y => ?gt, jumpsWhen_of_jumpRule hjge fun x y => ?ge,
    jumpsWhen_of_jumpRule hjlt fun x y => ?lt, jumpsWhen_of_jumpRule hjle fun x y => ?le⟩ <;>
  obtain ⟨hE, hG, hL⟩ := compareFlags_bits_iff x y
  case eq => exact hE
  case ne => rw [Bool.not_eq_true', ← Bool.not_eq_true, hE]
  case gt => exact hG
  case ge =>
    rw [Bool.or_eq_true, hG, hE]
    omega
  case lt => exact hL
  case le =>
    rw [Bool.or_eq_true, hL, hE]
    omega
end

section
/-! The ALU (R100 to R113): what each operation gives on the unsigned values, the three shapes of the ALU meanings on
registers, and the thirteen instructions by them. -/

namespace Sys2Proof.Machine

/-! ## The operations on unsigned values -/

@[simp] theorem aluAdd_toNat (x y : Byte) : (aluAdd x y).toNat = (x.toNat + y.toNat) % 256 := BitVec.toNat_add x y

@[simp] theorem aluMul_toNat (x y : Byte) : (aluMul x y).toNat = (x.toNat * y.toNat) % 256 := BitVec.toNat_mul x y

@[simp] theorem aluSub_toNat (x y : Byte) : (aluSub x y).toNat = (256 + x.toNat - y.toNat) % 256 := by
  rw [aluSub, BitVec.toNat_sub]
  have := y.isLt
  omega

/-- A shift by the whole byte `n` (D13): from 8 on, every bit has left the byte. -/
@[simp] theorem aluShl_toNat (x n : Byte) :
    (aluShl x n).toNat = if n.toNat ≥ 8 then 0 else (x.toNat * 2 ^ n.toNat) % 256 := by
  unfold aluShl
  split
  · rfl
  · rw [BitVec.toNat_shiftLeft, Nat.shiftLeft_eq]

@[simp] theorem aluShr_toNat (x n : Byte) :
    (aluShr x n).toNat = if n.toNat ≥ 8 then 0 else x.toNat / 2 ^ n.toNat := by
  unfold aluShr
  split
  · rfl
  · rw [BitVec.toNat_ushiftRight, Nat.shiftRight_eq_div_pow]

theorem aluDiv_zero (x : Byte) : aluDiv x 0 = .error ⟨.divideByZero, x.toNat⟩ := rfl

theorem aluDiv_of_ne {y : Byte} (h : y ≠ 0) (x : Byte) : aluDiv x y = .ok (x / y) := if_neg h

theorem aluMod_zero (x : Byte) : aluMod x 0 = .error ⟨.moduloByZero, x.toNat⟩ := rfl

theorem aluMod_of_ne {y : Byte} (h : y ≠ 0) (x : Byte) : aluMod x y = .ok (x % y) := if_neg h

/-- The source's `x ^ 0xFF` is the complement (R109). -/
theorem xor_0xFF_eq_not (x : Byte) : x ^^^ 0xFF = ~~~x := BitVec.xor_allOnes

/-! ## The shapes of the ALU meanings on registers -/

/-- A two-operand ALU instruction whose operation gives `v` is a register write followed by an advance of 3. -/
theorem exec_alu2_of_ok {i : Instr} {op : Byte → Byte → Except Trap Byte} {a b : Fin 8} {s : State} {v : Byte}
    (hx : exec i s = commit s (alu2 op (regByte a) (regByte b) s)) (hv : op (s.reg a) (s.reg b) = .ok v) :
    exec i s = commit s (finish s 3 (s.setReg a v)) := by
  rw [hx, alu2_regByte, hv, ok_bind_eq]

/-- The fault of the operation itself comes before the advance (R130). -/
theorem raisesIn_of_alu2_error {i : Instr} {op : Byte → Byte → Except Trap Byte} {a b : Fin 8} {s : State}
    {cause : Cause} {info : Nat} (hx : exec i s = commit s (alu2 op (regByte a) (regByte b) s))
    (hv : op (s.reg a) (s.reg b) = .error ⟨cause, info⟩) : RaisesIn i s cause info := by
  rw [RaisesIn, hx, alu2_regByte, hv]
  rfl

/-- `exec_setReg_completes` with the result as an unsigned value. -/
theorem exec_setReg_completes_toNat {i : Instr} {s : State} {n k : Nat} {a : Fin 8} {v : Byte}
    (hx : exec i s = commit s (finish s n (s.setReg a v))) (hv : v.toNat = k) (h : s.pc.toNat + n ≤ 255) :
    ∃ t, exec i s = .next t ∧ (t.reg a).toNat = k ∧ t.pc.toNat = s.pc.toNat + n ∧ OnlyRegs (· = a) s t := by
  obtain ⟨t, hnext, hreg, hkept⟩ := exec_setReg_completes hx h
  exact ⟨t, hnext, hreg ▸ hv, hkept⟩

/-- A two-operand ALU instruction whose operation cannot raise follows the rule of the unsigned function it computes. -/
theorem alu2Rule_of_exec {m : Mnemonic} {mk : Byte → Byte → Instr} {op : Byte → Byte → Byte} {f : Nat → Nat → Nat}
    (hfmt : FormatRR m mk)
    (hx : ∀ (a b : Byte) (s : State), exec (mk a b) s = commit s (alu2 (fun x y => .ok (op x y)) a b s))
    (hop : ∀ x y, (op x y).toNat = f x.toNat y.toNat) : Alu2Rule m mk f := by
  have hwrite (a b : Fin 8) (s : State) : exec (mk (regByte a) (regByte b)) s =
      commit s (finish s 3 (s.setReg a (op (s.reg a) (s.reg b)))) := exec_alu2_of_ok (hx _ _ s) rfl
  exact ⟨hfmt, fun a b s => raisesIn_of_advance (hwrite a b s),
    fun a b s => exec_setReg_completes_toNat (hwrite a b s) (hop _ _)⟩

/-- A two-operand ALU instruction whose operation raises exactly on a zero divisor follows the rule of the divisions. -/
theorem divisionRule_of_exec {m : Mnemonic} {mk : Byte → Byte → Instr} {op : Byte → Byte → Except Trap Byte}
    {res : Byte → Byte → Byte} {cause : Cause} {f : Nat → Nat → Nat} (hfmt : FormatRR m mk)
    (hx : ∀ (a b : Byte) (s : State), exec (mk a b) s = commit s (alu2 op a b s))
    (hzero : ∀ x, op x 0 = .error ⟨cause, x.toNat⟩) (hne : ∀ {y}, y ≠ 0 → ∀ x, op x y = .ok (res x y))
    (hres : ∀ x y, (res x y).toNat = f x.toNat y.toNat) : DivisionRule m mk cause f := by
  have hwrite (a b : Fin 8) (s : State) (hb : s.reg b ≠ 0) : exec (mk (regByte a) (regByte b)) s =
      commit s (finish s 3 (s.setReg a (res (s.reg a) (s.reg b)))) := exec_alu2_of_ok (hx _ _ s) (hne hb _)
  refine ⟨hfmt, fun a b s hb => ?_, fun a b s hb => raisesIn_of_advance (hwrite a b s hb),
    fun a b s hb => exec_setReg_completes_toNat (hwrite a b s hb) (hres _ _)⟩
  exact raisesIn_of_alu2_error (hx _ _ s) (by rw [hb, hzero])

/-- A one-operand ALU instruction with an advance of 2 follows the rule of the unsigned function it computes. -/
theorem stepByOneRule_of_exec {m : Mnemonic} {mk : Byte → Instr} {op : Byte → Byte} {f : Nat → Nat}
    (hfmt : FormatR m mk) (hx : ∀ (a : Byte) (s : State), exec (mk a) s = commit s (alu1 op 2 a s))
    (hop : ∀ x, (op x).toNat = f x.toNat) : StepByOneRule m mk f :=
  ⟨hfmt, fun a s => exec_setReg_completes_toNat (by rw [hx, alu1_regByte]) (hop (s.reg a))⟩

/-- NOT on a register is a write of the complement followed by an advance of 3. -/
theorem exec_not (a : Fin 8) (s : State) :
    exec (.not (regByte a)) s = commit s (finish s 3 (s.setReg a (~~~s.reg a))) := by
  rw [← xor_0xFF_eq_not]
  exact congrArg (commit s) (alu1_regByte _ 3 a s)

end Sys2Proof.Machine

open Sys2Proof Sys2Proof.Machine

/-- Settles O32: addition and multiplication of bytes are those of the unsigned values modulo 256. -/
theorem addAndMulWrap : Obligations.AddAndMulWrap :=
  ⟨alu2Rule_of_exec (formatRR_of_registerOperands (fun _ _ => rfl) (fun _ _ => rfl)) (fun _ _ _ => rfl) aluAdd_toNat,
   alu2Rule_of_exec (formatRR_of_registerOperands (fun _ _ => rfl) (fun _ _ => rfl)) (fun _ _ _ => rfl) aluMul_toNat⟩

/-- Settles O33: a bitwise operation on bytes is the same operation on their values. -/
theorem andOrXorResults : Obligations.AndOrXorResults :=
  ⟨alu2Rule_of_exec (formatRR_of_registerOperands (fun _ _ => rfl) (fun _ _ => rfl)) (fun _ _ _ => rfl)
     BitVec.toNat_and,
   alu2Rule_of_exec (formatRR_of_registerOperands (fun _ _ => rfl) (fun _ _ => rfl)) (fun _ _ _ => rfl)
     BitVec.toNat_or,
   alu2Rule_of_exec (formatRR_of_registerOperands (fun _ _ => rfl) (fun _ _ => rfl)) (fun _ _ _ => rfl)
     BitVec.toNat_xor⟩

/-- Settles O34: `aluSub_toNat` is the difference with 256 added first, so that it is a natural number. -/
theorem subSubtractsModulo256 : Obligations.SubSubtractsModulo256 :=
  alu2Rule_of_exec (formatRR_of_registerOperands (fun _ _ => rfl) (fun _ _ => rfl)) (fun _ _ _ => rfl) aluSub_toNat

/-- Settles O35: both raise exactly on a zero divisor, and before the advance. -/
theorem divAndModResults : Obligations.DivAndModResults :=
  ⟨divisionRule_of_exec (formatRR_of_registerOperands (fun _ _ => rfl) (fun _ _ => rfl)) (fun _ _ _ => rfl)
     aluDiv_zero aluDiv_of_ne (fun _ _ => BitVec.toNat_udiv),
   divisionRule_of_exec (formatRR_of_registerOperands (fun _ _ => rfl) (fun _ _ => rfl)) (fun _ _ _ => rfl)
     aluMod_zero aluMod_of_ne (fun _ _ => BitVec.toNat_umod)⟩

/-- Settles O36: the results are those of O35, and natural numbers recompose. -/
theorem quotientAndRemainderRecompose : Obligations.QuotientAndRemainderRecompose := by
  intro a b s hb hpc
  obtain ⟨⟨-, -, -, hdiv⟩, -, -, -, hmod⟩ := divAndModResults
  obtain ⟨t, hxt, hquot, -⟩ := hdiv a b s hb hpc
  obtain ⟨u, hxu, hrem, -⟩ := hmod a b s hb hpc
  have hpos : 0 < (s.reg b).toNat := Nat.pos_of_ne_zero fun h => hb (BitVec.eq_of_toNat_eq h)
  refine ⟨t, u, hxt, hxu, ?_, ?_⟩
  · rw [hquot, hrem, Nat.div_add_mod']
  · rw [hrem]
    exact Nat.mod_lt _ hpos

/-- Settles O37: `exec_not` writes the complement, and the second NOT, 3 further on, that of the complement. -/
theorem notComplementsAndSkipsAByte : Obligations.NotComplementsAndSkipsAByte := by
  refine ⟨formatR_of_registerOperands (fun _ _ => rfl) (fun _ => rfl), fun a s => raisesIn_of_advance (exec_not a s),
    fun a s => exec_setReg_completes_toNat (exec_not a s) BitVec.toNat_not, fun a s h => ?_⟩
  obtain ⟨t, hnext, hreg, hpc, -⟩ := exec_setReg_completes (exec_not a s) (by omega)
  obtain ⟨u, hnext', hreg', -⟩ := exec_setReg_completes (exec_not a t) (by omega)
  exact ⟨t, u, hnext, hnext', by rw [hreg', hreg, BitVec.not_not]⟩

/-- Settles O38: the two cases of the count are those of `aluShl` and `aluShr`. -/
theorem shiftsByTheWholeByte : Obligations.ShiftsByTheWholeByte :=
  ⟨alu2Rule_of_exec (formatRR_of_registerOperands (fun _ _ => rfl) (fun _ _ => rfl)) (fun _ _ _ => rfl) aluShl_toNat,
   alu2Rule_of_exec (formatRR_of_registerOperands (fun _ _ => rfl) (fun _ _ => rfl)) (fun _ _ _ => rfl) aluShr_toNat⟩

/-- Settles O39: the shape of a one-operand instruction knows no stack pointer; subtracting 1 is adding 255. -/
theorem incAndDecWrap : Obligations.IncAndDecWrap :=
  ⟨stepByOneRule_of_exec (formatR_of_registerOperands (fun _ _ => rfl) (fun _ => rfl)) (fun _ _ => rfl)
     (fun x => BitVec.toNat_add x 1),
   stepByOneRule_of_exec (formatR_of_registerOperands (fun _ _ => rfl) (fun _ => rfl)) (fun _ _ => rfl)
     (fun x => by rw [BitVec.toNat_sub]; exact congrArg (· % 256) (Nat.add_comm 255 x.toNat))⟩
end

section
/-! Exceptions (R120 to R130): what performing an instruction reports, proved once for every instruction against the list
of Safety.lean in the order of R130, and the step around it. -/

namespace Sys2Proof.Machine

/-! ## What performing an instruction reports -/

/-- Performing `i` in `s` raises this trap or, where there is none, completes. -/
def Reports (i : Instr) (s : State) : Option Trap → Prop
  | some e => RaisesIn i s e.cause e.info
  | none => ∃ t, exec i s = .next t ∧ (t.run = s.run ∨ t.run = .halted)

theorem Reports.of_some {i : Instr} {s t : State} {e : Trap} (h : Reports i s (some e)) (hx : exec i s = .next t) :
    t = s.raise e.cause e.info :=
  Host.Outcome.next.inj (hx.symm.trans h)

theorem Reports.of_none {i : Instr} {s t : State} (h : Reports i s none) (hx : exec i s = .next t) :
    t.run = s.run ∨ t.run = .halted := by
  obtain ⟨u, hu, hrun⟩ := h
  rw [hx] at hu
  cases hu
  exact hrun

/-- A point of R130's order: its fault is raised where it is found, and the later points are reached where it is not. -/
theorem reports_trapWhen_or {i : Instr} {s : State} {found : Bool} {cause : Cause} {info : Nat} {later : Option Trap}
    (hraise : found = true → RaisesIn i s cause info) (hlater : found = false → Reports i s later) :
    Reports i s ((trapWhen found cause info).or later) := by
  cases found with
  | true => exact hraise rfl
  | false => exact hlater rfl

/-! ## The advance (R130 point 6) -/

theorem advanceFault_of_adv {i : Instr} {n : Nat} (hn : i.mnemonic.adv = some n) (s : State) :
    advanceFault i s = trapWhen (decide (s.pc.toNat + n > 255)) .outOfRangeAddress (s.pc.toNat + n) := by
  rw [advanceFault, hn]

/-- An instruction whose last effect is its advance reports the advance fault or completes. -/
theorem reports_of_advance {i : Instr} {s u : State} {n : Nat} (hx : exec i s = commit s (finish s n u))
    (hn : i.mnemonic.adv = some n) (hu : u.run = s.run) : Reports i s (advanceFault i s) := by
  rw [advanceFault_of_adv hn, ← Option.or_none (o := trapWhen _ _ _)]
  refine reports_trapWhen_or (fun h => raisesIn_of_advance hx (of_decide_eq_true h)) fun h => ?_
  obtain ⟨p, hnext, -⟩ := exec_advance_completes hx (Nat.le_of_not_lt (of_decide_eq_false h))
  exact ⟨_, hnext, .inl hu⟩

/-- A jump reports nothing where it can be fetched: taken it does not advance, and an advance of 2 fits there. -/
theorem reports_of_jump {i : Instr} {s : State} {a : Fin 8} {taken : Bool} (hpc : s.pc.toNat ≤ 253)
    (hx : exec i s = commit s (jumpIf taken (regByte a) s)) (hn : i.mnemonic.adv = some 2) :
    Reports i s (advanceFault i s) := by
  cases taken with
  | true =>
    have hfits : ¬ s.pc.toNat + 2 > 255 := by omega
    rw [advanceFault_of_adv hn, decide_eq_false hfits]
    rw [jumpIf_taken, commit_ok] at hx
    exact ⟨_, hx, .inl rfl⟩
  | false =>
    rw [jumpIf_untaken] at hx
    exact reports_of_advance hx hn rfl

/-! ## The instruction's own fault (R130 point 5) -/

theorem regOf_regByte (r : Fin 8) : regOf (regByte r) = r :=
  Fin.ext (by simp [regOf, Nat.mod_eq_of_lt r.isLt])

/-- Whichever register POP names, its increment acts on register 7 as the load left it (R83). -/
theorem popIncrements_regByte (r : Fin 8) (s : State) :
    popIncrements (regByte r) s = (s.setReg r (s.memRead s.sp)).sp := by
  rw [popIncrements, State.sp_setReg]
  exact if_congr regByte_inj rfl rfl

/-- A division reports a zero divisor before its advance. -/
theorem reports_of_division {i : Instr} {s : State} {a b : Fin 8} {op : Byte → Byte → Except Trap Byte}
    {res : Byte → Byte → Byte} {cause : Cause} (hx : exec i s = commit s (alu2 op (regByte a) (regByte b) s))
    (hn : i.mnemonic.adv = some 3) (hzero : ∀ x, op x 0 = .error ⟨cause, x.toNat⟩)
    (hne : ∀ {y}, y ≠ 0 → ∀ x, op x y = .ok (res x y)) :
    Reports i s ((trapWhen (s.reg (regOf (regByte b)) == 0) cause (s.reg (regOf (regByte a))).toNat).or
      (advanceFault i s)) := by
  rw [regOf_regByte, regOf_regByte]
  refine reports_trapWhen_or (fun h0 => ?_) fun h0 => ?_
  · exact raisesIn_of_alu2_error hx (by rw [eq_of_beq h0, hzero])
  · exact reports_of_advance (exec_alu2_of_ok hx (hne (ne_of_beq_false h0) _)) hn rfl

theorem reports_push (a : Fin 8) (s : State) :
    Reports (.push (regByte a)) s ((ownFault (.push (regByte a)) s).or (advanceFault (.push (regByte a)) s)) :=
  reports_trapWhen_or (fun h0 => raisesIn_of_push (exec_push a s) (eq_of_beq h0)) fun h0 =>
    reports_of_advance (exec_push_of_sp_ne (ne_of_beq_false h0) a) rfl rfl

/-- CALL's return address fits wherever CALL can be fetched. -/
theorem reports_call (a : Fin 8) {s : State} (hpc : s.pc.toNat ≤ 253) :
    Reports (.call (regByte a)) s ((ownFault (.call (regByte a)) s).or (advanceFault (.call (regByte a)) s)) :=
  reports_trapWhen_or (fun h0 => raisesIn_of_push (exec_call a s) (eq_of_beq h0)) fun h0 =>
    ⟨_, exec_call_of_sp_ne (ne_of_beq_false h0) (by omega) a, .inl rfl⟩

theorem reports_pop (a : Fin 8) (s : State) :
    Reports (.pop (regByte a)) s ((ownFault (.pop (regByte a)) s).or (advanceFault (.pop (regByte a)) s)) := by
  have hpop := popIncrements_regByte a s
  refine reports_trapWhen_or (fun hff => ?_) fun hff => ?_
  · exact raisesIn_pop ((s.sp_setReg a _).symm.trans (hpop.symm.trans (eq_of_beq hff)))
  · have hsp : (s.setReg a (s.memRead s.sp)).sp ≠ 0xFF := hpop ▸ ne_of_beq_false hff
    have hx := exec_pop a s
    rw [incSp_ok hsp] at hx
    exact reports_of_advance hx rfl rfl

theorem reports_ret (s : State) : Reports .ret s ((ownFault .ret s).or (advanceFault .ret s)) :=
  reports_trapWhen_or (fun hff => raisesIn_ret (eq_of_beq hff)) fun hff =>
    ⟨_, exec_ret_of_sp_ne (ne_of_beq_false hff), .inl rfl⟩

/-! ## Every instruction -/

/-- Where no register operand is above 7, each of them names a register. -/
theorem regByte_of_no_bad_operand {i : Instr} {a : Byte} (h : i.firstBadOperand = none)
    (ha : a ∈ i.registerOperands) : ∃ r, a = regByte r := by
  have hok : registerByteOk a = true := List.all_eq_true.mp ((wf_iff_no_bad_operand i).mpr h) a ha
  rcases operand_cases a with hr | hbad
  · exact hr
  · exact absurd hok (ne_true_of_eq_false (registerByteOk_eq_false.mpr hbad))

/-- With its operands in range, an instruction that can be fetched reports its own fault, else its advance's. -/
theorem exec_reports {i : Instr} {s : State} (hpc : s.pc.toNat ≤ 253) (hwf : i.firstBadOperand = none) :
    Reports i s ((ownFault i s).or (advanceFault i s)) := by
  have named {a : Byte} : a ∈ i.registerOperands → ∃ r, a = regByte r := regByte_of_no_bad_operand hwf
  cases i with
  | nop => exact reports_of_advance (exec_nop s) rfl rfl
  | hlt => exact ⟨_, exec_hlt s, .inr rfl⟩
  | ret => exact reports_ret s
  | push a =>
    obtain ⟨r, rfl⟩ := named (.head _)
    exact reports_push r s
  | pop a =>
    obtain ⟨r, rfl⟩ := named (.head _)
    exact reports_pop r s
  | call a =>
    obtain ⟨r, rfl⟩ := named (.head _)
    exact reports_call r hpc
  | jmp a =>
    obtain ⟨r, rfl⟩ := named (.head _)
    exact ⟨_, exec_jmp r s, .inl rfl⟩
  | jeq a | jne a | jgt a | jlt a | jle a | jge a =>
    obtain ⟨r, rfl⟩ := named (.head _)
    exact reports_of_jump hpc rfl rfl
  | prn a | pra a | inc a | dec a | not a | ldi a b =>
    obtain ⟨r, rfl⟩ := named (.head _)
    exact reports_of_advance (congrArg (commit s) (withReg_regByte r _)) rfl rfl
  | ld a b | st a b | cmp a b =>
    obtain ⟨r, rfl⟩ := named (.head _)
    obtain ⟨q, rfl⟩ := named (.tail _ (.head _))
    exact reports_of_advance (congrArg (commit s) (withRegs_regByte r q _)) rfl rfl
  | add a b | sub a b | mul a b | and a b | or a b | xor a b | shl a b | shr a b =>
    obtain ⟨r, rfl⟩ := named (.head _)
    obtain ⟨q, rfl⟩ := named (.tail _ (.head _))
    exact reports_of_advance (exec_alu2_of_ok rfl rfl) rfl rfl
  | div a b =>
    obtain ⟨r, rfl⟩ := named (.head _)
    obtain ⟨q, rfl⟩ := named (.tail _ (.head _))
    exact reports_of_division rfl rfl aluDiv_zero aluDiv_of_ne
  | mod a b =>
    obtain ⟨r, rfl⟩ := named (.head _)
    obtain ⟨q, rfl⟩ := named (.tail _ (.head _))
    exact reports_of_division rfl rfl aluMod_zero aluMod_of_ne

/-! ## The step -/

/-- The points of R130 that come after decoding: the operands, then the instruction's own fault, then its advance. -/
def instrTrap (i : Instr) (s : State) : Option Trap :=
  match i.firstBadOperand with
  | some v => some ⟨.outOfRangeAddress, v.toNat⟩
  | none => (ownFault i s).or (advanceFault i s)

theorem exec_reports_instrTrap (i : Instr) {s : State} (hpc : s.pc.toNat ≤ 253) : Reports i s (instrTrap i s) := by
  rw [instrTrap]
  cases hbad : i.firstBadOperand with
  | some v => exact raisesIn_of_bad_operand s hbad
  | none => exact exec_reports hpc hbad

/-- The trace point changes nothing that the list reads. -/
theorem instrTrap_traceStep (cfg : Config) (i : Instr) (s : State) (w : Window) :
    instrTrap i (traceStep cfg s w) = instrTrap i s := by
  rw [traceStep_eq]
  rfl

theorem expectedTrap_fetchFault (cfg : Config) {s : State} (h : 253 < s.pc.toNat) :
    expectedTrap cfg s = some ⟨.outOfRangeAddress, 256⟩ := if_pos h

theorem expectedTrap_illegal {cfg : Config} {s : State} (hpc : s.pc.toNat ≤ 253)
    (hm : ∀ m, cfg.opcodeOf m ≠ s.memRead s.pc) :
    expectedTrap cfg s = some ⟨.illegalInstruction, (s.memRead s.pc).toNat⟩ := by
  rw [expectedTrap, if_neg (Nat.not_lt.mpr hpc), (decode_illegal_iff cfg ⟨s.memRead s.pc, _, _⟩).mpr hm]

theorem expectedTrap_decoded {cfg : Config} {s : State} {i : Instr} (hpc : s.pc.toNat ≤ 253)
    (hd : decode cfg (windowAt s) = .ok i) : expectedTrap cfg s = instrTrap i s := by
  rw [windowAt] at hd
  rw [expectedTrap, if_neg (Nat.not_lt.mpr hpc), hd]
  rfl

/-- A fault after the trace point is precise but for the record (R129). -/
theorem raise_traceStep (cfg : Config) (s : State) (w : Window) (cause : Cause) (info : Nat) :
    (traceStep cfg s w).raise cause info = { withRecord cfg s w with run := .faulted cause s.pc info } :=
  congrArg (fun pc => { withRecord cfg s w with run := .faulted cause pc info }) (traceStep_pc cfg s w)

end Sys2Proof.Machine

open Sys2Proof Sys2Proof.Machine

/-- Settles O12: each way a step can go is one group of points of R130, and `exec_reports` covers those of an
instruction. -/
theorem faultsFollowTheListAndItsPriority : Obligations.FaultsFollowTheListAndItsPriority := by
  intro cfg s t hrun h
  obtain ⟨-, way⟩ := cycle_cases h
  cases way with
  | fetchFault hpc ht =>
    rw [expectedTrap_fetchFault cfg hpc, if_pos hpc]
    exact ⟨fun _ he => Option.some.inj he ▸ ht, fun hn => nomatch hn⟩
  | illegal hpc hm ht =>
    rw [expectedTrap_illegal hpc hm, if_neg (Nat.not_lt.mpr hpc)]
    exact ⟨fun _ he => Option.some.inj he ▸ ht.trans (raise_traceStep ..), fun hn => nomatch hn⟩
  | instruction i hpc hd hx =>
    have hrep := exec_reports_instrTrap i (s := traceStep cfg s (windowAt s)) (by simpa using hpc)
    rw [instrTrap_traceStep] at hrep
    rw [expectedTrap_decoded hpc hd, if_neg (Nat.not_lt.mpr hpc)]
    refine ⟨fun e he => ?_, fun hn => ?_⟩
    · rw [he] at hrep
      exact (hrep.of_some hx).trans (raise_traceStep ..)
    · rw [hn] at hrep
      simpa [hrun] using hrep.of_none hx

/-- Settles O10: such a window is rejected whatever its operand bytes are, and after the trace point. -/
theorem illegalOpcodeFaults : Obligations.IllegalOpcodeFaults := by
  intro cfg s hrun hpc hm
  rw [cycle_running hrun, runningCycle_illegal hpc ((decode_illegal_iff cfg (windowAt s)).mpr hm), raise_traceStep]
  rfl

/-- Settles O46: of the ends of an instruction only the fault entry leaves a running core Faulted. -/
theorem faultsCommitNothing : Obligations.FaultsCommitNothing := by
  intro i s t cause pc info hrun h ht
  rcases exec_outcome h with hc | ⟨-, rfl⟩ | ⟨e, -, rfl⟩
  · rw [hc.run_eq, hrun] at ht
    cases ht
  · cases ht
  · cases ht
    exact ⟨rfl, rfl⟩

/-- Settles O9: the fetch fails before the trace point and before any byte is decoded. -/
theorem fetchWindowFaults : Obligations.FetchWindowFaults := fun _ _ hrun hpc =>
  (cycle_running hrun).trans (runningCycle_fetchFault hpc)
end

section
/-! Reset, load and the ST hazard (R140, R141, R146): what a loaded memory reads, and the step that runs the byte an ST
leaves PC at. -/

namespace Sys2Proof.Machine

/-! ## Load (R141) -/

/-- From its first address on a loaded memory reads the bytes, and past their end, as before it, what was there. -/
theorem Memory.read_loadFrom (bytes : List Byte) : ∀ (n : Nat) (m : Memory) (c : Nat),
    (loadFrom n bytes m).read c = if c < n then m.read c else bytes.getD (c - n) (m.read c) := by
  induction bytes with
  | nil => simp [loadFrom]
  | cons b rest ih =>
    intro n m c
    rw [loadFrom, ih, Memory.read_write]
    rcases Nat.lt_trichotomy c n with hlt | rfl | hgt
    · rw [if_pos (by omega), if_neg (by omega), if_pos hlt]
    · simp
    · obtain ⟨k, rfl⟩ := Nat.exists_eq_add_of_lt hgt
      have hk : n + k + 1 - n = k + 1 := by omega
      have hk' : n + k + 1 - (n + 1) = k := by omega
      rw [if_neg (by omega), if_neg (by omega), if_neg (by omega), hk, hk', List.getD_cons_succ]

/-- Booting a program that fits is reset with the program in memory. -/
theorem boot_of_fits {bytes : List Byte} (h : bytes.length ≤ 256) :
    boot (some bytes) = .next { State.reset with mem := loadFrom 0 bytes State.reset.mem } := if_pos h

theorem boot_of_too_long {bytes : List Byte} (h : 256 < bytes.length) :
    boot (some bytes) = .refused (.programTooLong bytes.length) := if_neg (Nat.not_le.mpr h)

/-- Of the memory of a running core the invariant asks only the canonical form. -/
theorem Inv.with_mem {cfg : Config} {s : State} {m : Memory} (hs : Inv cfg s) (hrun : s.run = .running)
    (hm : m.wf = true) : Inv cfg { s with mem := m } where
  memory := hm
  flags := hs.flags
  ended := by simp only [EndTrue, hrun]
  trace := hs.trace

/-! ## The step after an ST (R146) -/

/-- The window at PC decodes to the mnemonic whose opcode stands there. -/
theorem decode_windowAt_of_opcode {cfg : Config} {s : State} {m : Mnemonic} (h : s.memRead s.pc = cfg.opcodeOf m) :
    decode cfg (windowAt s) = .ok (m.withOperands (s.memRead (s.pc + 1)) (s.memRead (s.pc + 2))) := by
  rw [windowAt, h, decode_opcodeOf]

/-- The default configuration does not trace, so its step is the decoded instruction performed in the same state. -/
theorem step_decoded {s : State} {i : Instr} (hrun : s.run = .running) (hpc : s.pc.toNat ≤ 253)
    (hd : decode Config.default (windowAt s) = .ok i) : step s = exec i s :=
  cycle_decoded hrun hpc hd

/-- A running core performs the instruction whose opcode of the default map stands at PC. -/
theorem step_of_opcode {s : State} {m : Mnemonic} (hrun : s.run = .running) (hpc : s.pc.toNat ≤ 253)
    (h : s.memRead s.pc = defaultOpcode m) :
    step s = exec (m.withOperands (s.memRead (s.pc + 1)) (s.memRead (s.pc + 2))) s :=
  step_decoded hrun hpc (decode_windowAt_of_opcode h)

/-- Of the operand bytes that name a register only 0 and 1 are opcodes of the default map. -/
theorem defaultOpcode_ne_regByte {b : Fin 8} (hb : 1 < b) (m : Mnemonic) : defaultOpcode m ≠ regByte b := by
  revert b
  cases m <;> decide

/-- An ST that does not store over its own byte b leaves PC at that byte, unchanged. -/
theorem step_st {s : State} {a b : Fin 8} (hrun : s.run = .running) (hpc : s.pc.toNat ≤ 253)
    (hw : windowAt s = ⟨0x84, regByte a, regByte b⟩) (hne : s.reg a ≠ s.pc + 2) :
    ∃ t, step s = .next t ∧ t.run = .running ∧ t.pc.toNat = s.pc.toNat + 2 ∧ t.memRead t.pc = regByte b := by
  have hd : decode Config.default (windowAt s) = .ok (.st (regByte a) (regByte b)) := hw ▸ decode_st Config.default _ _
  refine ⟨_, (step_decoded hrun hpc hd).trans (exec_st (by omega) a b), hrun, ?_, ?_⟩
  · rw [State.setPc_pc]
    bv_omega
  · rw [State.setPc_memRead, State.setPc_pc, State.memRead_memWrite, if_neg hne.symm]
    exact congrArg Window.b hw

end Sys2Proof.Machine

open Sys2Proof Sys2Proof.Machine

/-- Settles O49: the byte PC is left at is the opcode of NOP, that of HLT, or no opcode of the default map. -/
theorem stFallsIntoItsOwnOperand : Obligations.StFallsIntoItsOwnOperand := by
  intro s a b hrun hpc hw hne
  obtain ⟨t, hst, htrun, htpc, hop⟩ := step_st hrun (by omega) hw hne
  refine ⟨t, hst, htpc, ?nop, ?hlt, ?illegal⟩
  case nop =>
    rintro rfl
    obtain ⟨p, hnop, hp⟩ := exec_advance_completes (exec_nop t) (by omega)
    exact ⟨_, (step_of_opcode (m := .nop) htrun (by omega) hop).trans hnop, htrun, by rw [State.setPc_pc]; omega⟩
  case hlt =>
    rintro rfl
    exact (step_of_opcode (m := .hlt) htrun (by omega) hop).trans (exec_hlt t)
  case illegal =>
    intro hb
    have hill := illegalOpcodeFaults Config.default t htrun (by omega) (hop ▸ defaultOpcode_ne_regByte hb)
    rw [hop, regByte_toNat] at hill
    exact hill

/-- Settles O52: an empty memory with the bytes loaded from address 0 reads them, and 0 past their end. -/
theorem loadPlacesTheProgram : Obligations.LoadPlacesTheProgram := by
  refine ⟨fun bytes hlen => ⟨_, boot_of_fits hlen, fun c => ?_, rfl, fun cfg => ?_⟩, fun _ => boot_of_too_long, rfl⟩
  · exact Memory.read_loadFrom bytes 0 [] c.toNat
  · have hwf := loadFrom_wf bytes 0 State.reset.mem (by rwa [Nat.zero_add]) reset_mem_wf
    exact (resetMeetsTheInvariant cfg).with_mem rfl hwf
end
